-- ==== Sys2Proof/Word.lean ====
section
/-! DEFINITION. The word types of the core: a byte, the program counter, the flag field. -/

namespace Sys2Proof

/-- A memory cell or a general register: 8 bits (spec/10_state.md R21, R23). -/
abbrev Byte := BitVec 8

/-- The program counter: 9 bits (spec/10_state.md R27). DESIGN CHOICE, unsafe (log entry 8, decision D7). -/
abbrev Pc := BitVec 9

/-- The comparison flag field: 3 bits (spec/10_state.md R29). -/
abbrev Flags := BitVec 3

end Sys2Proof
end

