-- ==== Sys2Proof/Syntax.lean ====
section
/-! DEFINITION. The 22 instructions of spec/30_encoding.md R87, in the order of spec/opcode_table.json. -/

namespace Sys2Proof

/-- One constructor per row of spec/opcode_table.json. A register operand is carried as the operand BYTE
the instruction holds (spec/30_encoding.md R85): the index is the whole byte, and a value above 7 is a legal
encoding whose handler raises RegisterBounds (spec/60_exceptions.md R226).
DESIGN CHOICE, safe (log entry 6): the check stands in the handler, where the spec puts it, not in the decoder. -/
inductive Instr where
  | hlt
  | ret
  | push (r : Byte)
  | pop (r : Byte)
  | prn (r : Byte)
  | call (r : Byte)
  | jmp (r : Byte)
  | jeq (r : Byte)
  | jne (r : Byte)
  | not (a : Byte)
  | ldi (r v : Byte)
  | add (a b : Byte)
  | sub (a b : Byte)
  | mul (a b : Byte)
  | div (a b : Byte)
  | mod (a b : Byte)
  | cmp (a b : Byte)
  | and (a b : Byte)
  | or (a b : Byte)
  | xor (a b : Byte)
  | shl (a b : Byte)
  | shr (a b : Byte)
  deriving DecidableEq, Repr

end Sys2Proof
end

