-- ==== Sys2Proof/WellFormed.lean ====
section
/-! DEFINITION. Which instructions have only legal operands (spec/30_encoding.md R80, R85, R86). -/

namespace Sys2Proof

/-- A register operand byte is legal from 0 to 7 (spec/30_encoding.md R85). -/
def regOk (b : Byte) : Bool := decide (b.toNat ≤ 7)

/-- Every register operand is legal; the immediate of LDI may be any byte (spec/30_encoding.md R85, R86). -/
def Instr.WellFormed : Instr → Bool
  | .hlt => true
  | .ret => true
  | .push r => regOk r
  | .pop r => regOk r
  | .prn r => regOk r
  | .call r => regOk r
  | .jmp r => regOk r
  | .jeq r => regOk r
  | .jne r => regOk r
  | .not a => regOk a
  | .ldi r _ => regOk r
  | .add a b => regOk a && regOk b
  | .sub a b => regOk a && regOk b
  | .mul a b => regOk a && regOk b
  | .div a b => regOk a && regOk b
  | .mod a b => regOk a && regOk b
  | .cmp a b => regOk a && regOk b
  | .and a b => regOk a && regOk b
  | .or a b => regOk a && regOk b
  | .xor a b => regOk a && regOk b
  | .shl a b => regOk a && regOk b
  | .shr a b => regOk a && regOk b

end Sys2Proof
end

