-- ==== Sys2Proof/Decode.lean ====
section
/-! DEFINITION. The opcode map, the decoder, the encoder (spec/30_encoding.md). -/

namespace Sys2Proof

/-- Operand formats of spec/30_encoding.md R80, each with the constructor that takes its operand bytes. -/
inductive Shape where
  | z (i : Instr)
  | r (f : Byte → Instr)
  | rr (f : Byte → Byte → Instr)
  | ri (f : Byte → Byte → Instr)

/-- The opcode map of spec/30_encoding.md R87, row by row: opcode byte, format, instruction.
PRESUMED, unsafe (log entry 1): the byte values are the LS-8 family's, which the spec takes (D1). -/
def opcodeTable : List (Byte × Shape) :=
  [ (0b00000001#8, .z .hlt),
    (0b00010001#8, .z .ret),
    (0b01000101#8, .r .push),
    (0b01000110#8, .r .pop),
    (0b01000111#8, .r .prn),
    (0b01010000#8, .r .call),
    (0b01010100#8, .r .jmp),
    (0b01010101#8, .r .jeq),
    (0b01010110#8, .r .jne),
    (0b01101001#8, .r .not),
    (0b10000010#8, .ri .ldi),
    (0b10100000#8, .rr .add),
    (0b10100001#8, .rr .sub),
    (0b10100010#8, .rr .mul),
    (0b10100011#8, .rr .div),
    (0b10100100#8, .rr .mod),
    (0b10100111#8, .rr .cmp),
    (0b10101000#8, .rr .and),
    (0b10101010#8, .rr .or),
    (0b10101011#8, .rr .xor),
    (0b10101100#8, .rr .shl),
    (0b10101101#8, .rr .shr) ]

/-- First row of a table with the given opcode byte; all 8 bits are compared (spec/30_encoding.md R83). -/
def findRow : List (Byte × Shape) → Byte → Option Shape
  | [], _ => none
  | (k, sh) :: rest, b => if k = b then some sh else findRow rest b

/-- The dispatch lookup (spec/44_execution_loop.md R194). -/
def shapeOf (b : Byte) : Option Shape := findRow opcodeTable b

/-- Whether a byte is one of the 22 opcodes; the other 234 are unknown (spec/30_encoding.md R89). -/
def isOpcode (b : Byte) : Bool := (shapeOf b).isSome

/-- Instruction length from the opcode byte: bits 7:6 plus 1 (spec/30_encoding.md R81). -/
def lenOfOpcode (b : Byte) : Nat := ((b >>> 6) &&& 0b11#8).toNat + 1

/-- Sets-PC-directly flag: bit 4 of the opcode byte (spec/30_encoding.md R82). -/
def setsPcFlag (b : Byte) : Bool := (b >>> 4) &&& 1#8 == 1#8

/-- Why the decoder gives no instruction. -/
inductive DecodeError where
  /-- No byte at all was given. -/
  | noOpcode
  /-- The first byte is not one of the 22 opcodes (spec/30_encoding.md R89). -/
  | unknownOpcode (b : Byte)
  /-- The opcode is known and its operand byte number `k` (1 or 2) is not there
  (spec/44_execution_loop.md R195). -/
  | missingOperand (k : Nat)
  deriving DecidableEq, Repr

/-- Operands of a known opcode, taken in ascending order; bytes the format does not have are not looked at
(spec/30_encoding.md R91, spec/44_execution_loop.md R195). -/
def takeOperands : Shape → List Byte → Except DecodeError Instr
  | .z i, _ => .ok i
  | .r _, [] => .error (.missingOperand 1)
  | .r f, a :: _ => .ok (f a)
  | .rr _, [] => .error (.missingOperand 1)
  | .rr _, [_] => .error (.missingOperand 2)
  | .rr f, a :: b :: _ => .ok (f a b)
  | .ri _, [] => .error (.missingOperand 1)
  | .ri _, [_] => .error (.missingOperand 2)
  | .ri f, a :: b :: _ => .ok (f a b)

/-- The decoder: total on every list of bytes, byte 0 the opcode (spec/30_encoding.md R80, R91). An unknown
opcode is reported whatever follows it (spec/44_execution_loop.md R194, R195). -/
def decode : List Byte → Except DecodeError Instr
  | [] => .error .noOpcode
  | b :: rest =>
    match shapeOf b with
    | none => .error (.unknownOpcode b)
    | some sh => takeOperands sh rest

/-- Opcode byte of each instruction (the hex column of spec/30_encoding.md R87). -/
def Instr.opcode : Instr → Byte
  | .hlt => 0x01#8
  | .ret => 0x11#8
  | .push _ => 0x45#8
  | .pop _ => 0x46#8
  | .prn _ => 0x47#8
  | .call _ => 0x50#8
  | .jmp _ => 0x54#8
  | .jeq _ => 0x55#8
  | .jne _ => 0x56#8
  | .not _ => 0x69#8
  | .ldi _ _ => 0x82#8
  | .add _ _ => 0xA0#8
  | .sub _ _ => 0xA1#8
  | .mul _ _ => 0xA2#8
  | .div _ _ => 0xA3#8
  | .mod _ _ => 0xA4#8
  | .cmp _ _ => 0xA7#8
  | .and _ _ => 0xA8#8
  | .or _ _ => 0xAA#8
  | .xor _ _ => 0xAB#8
  | .shl _ _ => 0xAC#8
  | .shr _ _ => 0xAD#8

/-- Operand bytes of each instruction, first operand first (spec/30_encoding.md R80). -/
def Instr.operands : Instr → List Byte
  | .hlt => []
  | .ret => []
  | .push r => [r]
  | .pop r => [r]
  | .prn r => [r]
  | .call r => [r]
  | .jmp r => [r]
  | .jeq r => [r]
  | .jne r => [r]
  | .not a => [a]
  | .ldi r v => [r, v]
  | .add a b => [a, b]
  | .sub a b => [a, b]
  | .mul a b => [a, b]
  | .div a b => [a, b]
  | .mod a b => [a, b]
  | .cmp a b => [a, b]
  | .and a b => [a, b]
  | .or a b => [a, b]
  | .xor a b => [a, b]
  | .shl a b => [a, b]
  | .shr a b => [a, b]

/-- The encoder: opcode byte at the lowest address, then the operand bytes (spec/30_encoding.md R80). -/
def encode (i : Instr) : List Byte := i.opcode :: i.operands

/-- `len` of an instruction, read from bits 7:6 of its opcode byte (spec/30_encoding.md R81).
DESIGN CHOICE, unsafe: 2 for NOT, JEQ, JNE and CALL (log entry 18, decision D22, conflicts C1 and C2). -/
def Instr.length (i : Instr) : Nat := lenOfOpcode i.opcode

/-- The three bytes at the instruction's addresses, from a number whose bit 0 is the least significant bit
of the first byte; bits from `nbits` up are 0. -/
def wordBytes (nbits w : Nat) : List Byte :=
  [ BitVec.ofNat 8 (w % 2 ^ nbits),
    BitVec.ofNat 8 (w % 2 ^ nbits / 256),
    BitVec.ofNat 8 (w % 2 ^ nbits / 65536) ]

/-- What the decoder reads from an instruction numbered as spec/opcode_table.json numbers its bits. -/
def decodeTableWord (nbits w : Nat) : Option Instr :=
  match decode (wordBytes nbits w) with
  | .ok i => some i
  | .error _ => none

end Sys2Proof
end

