-- ==== Sys2Proof/Config.lean ====
section
/-! DEFINITION. The implementation parameters of spec/00_scope.md R5. The two the spec marks OPEN are the
fields of `Config`; the others are constants. The spec leaves no result of an instruction undefined, so there is
no free value here. -/

namespace Sys2Proof

/-- The OPEN parameters of spec/00_scope.md R5 (decisions D2 and D3 of spec/92_eei_decisions.md). -/
structure Config where
  /-- GPR_RESET: what each of R0..R6 holds after reset. -/
  gprReset : Byte
  /-- FL_RESET: what the flag field holds after reset. -/
  flReset : Flags
  deriving DecidableEq, Repr

/-- The spec's defaults for the OPEN parameters (spec/10_state.md R37).
DESIGN CHOICE, unsafe (log entries 2 and 3): the source gives neither value. -/
def Config.default : Config := { gprReset := 0x00#8, flReset := 0b000#3 }

/-- MEM_SIZE (spec/00_scope.md R5, spec/10_state.md R21). -/
abbrev Config.memSize : Nat := 256

/-- SP_INDEX: register 7 is the stack pointer (spec/10_state.md R24). -/
abbrev Config.spIndex : Fin 8 := 7

/-- SP_RESET (spec/10_state.md R24). -/
def Config.spReset : Byte := 0xF4#8

/-- PC_RESET (spec/10_state.md R26). -/
def Config.pcReset : Pc := 0#9

/-- IR_RESET (spec/10_state.md R37). DESIGN CHOICE of the spec (D4, log entry 4): every cycle that decodes
anything writes `ir` first. -/
def Config.irReset : Byte := 0x00#8

/-- LOAD_BASE: the address of the first image byte (spec/20_memory.md R65). -/
def Config.loadBase : Nat := 0

end Sys2Proof
end

