-- ==== Sys2Proof/Machine/State.lean ====
section
/-! DEFINITION. The state of the core (spec/10_state.md R20), its faults, its reset (R37), and the reasons a
step can stop. -/

namespace Sys2Proof.Machine

/-- Memory contents: (address, byte) pairs, addresses strictly rising, no pair holding the byte 0x00 that an
unlisted address reads as (spec/10_state.md R21: the 256 cells are zero-initialised). -/
abbrev Memory := List Host.Cell

/-- Run state of the dispatch FSM (spec/10_state.md R32, spec/44_execution_loop.md R190). -/
inductive RunState where
  | running
  | halted
  | faulted
  deriving DecidableEq, Repr

/-- The core's own faults with what `info` records for each (spec/60_exceptions.md R220). These are effects the
spec describes (R228), not stops of the model: the fault record is state.
DESIGN CHOICE, safe: the record's form (log entry 19, decisions D9 and D10). -/
inductive CoreFault where
  /-- Cause 1; info is the opcode byte. -/
  | unknownOpcode (op : Byte)
  /-- Cause 2; reserved, raised by nothing (spec/60_exceptions.md R222). -/
  | unsupportedALUOperation
  /-- Cause 3; info is the address of the DIV. -/
  | divideByZero (pc : Pc)
  /-- Cause 4; info is the address of the MOD. -/
  | moduloByZero (pc : Pc)
  /-- Cause 5; info is the offending address as an integer. -/
  | memoryBounds (addr : Int)
  /-- Cause 6; info is the offending operand byte. -/
  | registerBounds (index : Byte)
  deriving DecidableEq, Repr

/-- The whole state of spec/10_state.md R20, the output trace included. -/
structure State where
  /-- `M`, the 256 cells (R21). -/
  mem : Memory
  /-- `x`, general registers R0..R7; R7 is the stack pointer (R22 to R24). -/
  x : Vector Byte 8
  /-- Program counter (R26, R27). -/
  pc : Pc
  /-- Instruction register (R28). -/
  ir : Byte
  /-- Comparison flags: EQUAL bit 0, LESS_THAN bit 1, GREATER_THAN bit 2 (R29). -/
  fl : Flags
  /-- Halted bit (R31). -/
  halted : Bool
  /-- Run state (R32). -/
  run : RunState
  /-- Fault record, `none` while nothing is recorded (R33). -/
  fault : Option CoreFault
  /-- Output trace, oldest value first (R34). -/
  out : List Byte
  deriving DecidableEq, Repr

/-- Why a step cannot be taken at all. No instruction raises either of these: the core's faults are next
states (`CoreFault`). -/
inductive Fault where
  /-- Raised by `step` on a state whose run state is HALTED: the core performs no cycle there
  (spec/10_state.md R32, spec/44_execution_loop.md R190). Safe: a stop. -/
  | coreHalted
  /-- Raised by `step` on a state whose run state is FAULTED: the core performs no cycle there
  (spec/10_state.md R32, spec/60_exceptions.md R230). Safe: a stop. -/
  | coreFaulted
  deriving DecidableEq, Repr

/-- Requests that are given no meaning. No instruction raises one. -/
inductive Refusal where
  /-- An instruction not modelled; no arm of `exec` raises it in this model. Safe: a stop. -/
  | notModelled (mnemonic : String)
  /-- Raised by `boot` for an image of more than 256 bytes (spec/20_memory.md R66). Safe: a stop. -/
  | imageTooLong (length : Nat)
  /-- Raised by `hostReset` on a RUNNING core: no such move exists (spec/20_memory.md R67). Safe: a stop. -/
  | resetWhileRunning
  deriving DecidableEq, Repr

/-- What a step, a meaning or a host operation answers. -/
abbrev Result := Host.Outcome State Fault Refusal

/-- State after reset, before the loader runs, for given OPEN parameters (spec/10_state.md R37,
spec/70_reset_and_hazards.md R260). -/
def State.resetWith (c : Config) : State :=
  { mem := []
    x := (Vector.replicate 8 c.gprReset).set 7 Config.spReset
    pc := Config.pcReset
    ir := Config.irReset
    fl := c.flReset
    halted := false
    run := .running
    fault := none
    out := [] }

/-- State after reset with the spec's default parameters (log entries 2 and 3). -/
def State.reset : State := State.resetWith Config.default

end Sys2Proof.Machine
end

