-- ==== Sys2Proof/Machine/Ops.lean ====
section
/-! DEFINITION. Operations over memory and registers, taking a fault, and what the cycle does around a handler. -/

namespace Sys2Proof.Machine

/-! ## Memory as data -/

/-- What an unlisted address reads as: memory is zero-initialised (spec/10_state.md R21, R37). -/
def Memory.unlisted : Byte := 0x00#8

/-- The byte at an address. -/
def Memory.read : Memory → Nat → Byte
  | [], _ => Memory.unlisted
  | (k, v) :: rest, a => if k = a then v else Memory.read rest a

/-- Put a pair before a memory whose addresses are all above it, keeping the canonical form. -/
def Memory.cons (a : Nat) (v : Byte) (m : Memory) : Memory :=
  if v = Memory.unlisted then m else (a, v) :: m

/-- Set the byte at an address, keeping the canonical form. -/
def Memory.write : Memory → Nat → Byte → Memory
  | [], a, v => Memory.cons a v []
  | (k, w) :: rest, a, v =>
    if a < k then Memory.cons a v ((k, w) :: rest)
    else if a = k then Memory.cons a v rest
    else (k, w) :: Memory.write rest a v

/-- The list is canonical from an address on: rising, below MEM_SIZE, no unlisted value. -/
def Memory.wfFrom : Nat → Memory → Bool
  | _, [] => true
  | lo, (k, v) :: rest =>
    decide (lo ≤ k) && decide (k < Config.memSize) && decide (v ≠ Memory.unlisted) && Memory.wfFrom (k + 1) rest

/-- Canonical form of memory: addresses strictly rising and below 256, no entry equal to what an unlisted
address reads as. -/
def Memory.wf (m : Memory) : Bool := Memory.wfFrom 0 m

/-- Bytes put at ascending addresses from `a`; an address that does not exist is passed over. -/
def Memory.place : List Byte → Nat → Memory → Memory
  | [], _, m => m
  | b :: bs, a, m => Memory.place bs (a + 1) (if a < Config.memSize then m.write a b else m)

/-! ## State accessors -/

/-- `x[i]` (spec/00_scope.md R9). -/
def State.reg (s : State) (i : Fin 8) : Byte := s.x[i]

/-- `x[i] <- v` (spec/00_scope.md R9): every register keeps what is written, none is hard-wired
(spec/10_state.md R22). -/
def State.setReg (s : State) (i : Fin 8) (v : Byte) : State := { s with x := s.x.set i v }

/-- SP, which is `x[7]` (spec/10_state.md R24). -/
def State.sp (s : State) : Byte := s.reg Config.spIndex

/-- `x[7] <- v`. -/
def State.setSp (s : State) (v : Byte) : State := s.setReg Config.spIndex v

/-- `pc <- t`. -/
def State.setPc (s : State) (t : Pc) : State := { s with pc := t }

/-- `pc <- t` for a target that is a byte: a register's or a cell's value (spec/10_state.md R27). -/
def State.setPcByte (s : State) (t : Byte) : State := s.setPc (t.setWidth 9)

/-- `ir <- b` (spec/10_state.md R28). -/
def State.setIr (s : State) (b : Byte) : State := { s with ir := b }

/-- `fl <- f` (spec/10_state.md R30). -/
def State.setFl (s : State) (f : Flags) : State := { s with fl := f }

/-- `halted <- true` (spec/10_state.md R31). -/
def State.setHalted (s : State) : State := { s with halted := true }

/-- `emit(v)`: append to the output trace; the sink always accepts (spec/10_state.md R34).
DESIGN CHOICE, unsafe if a sink can block (log entry 12, decision D28). -/
def State.emit (s : State) (v : Byte) : State := { s with out := s.out ++ [v] }

/-- Write one cell, without a bounds check. -/
def State.setCell (s : State) (a : Nat) (v : Byte) : State := { s with mem := s.mem.write a v }

/-! ## Memory primitives -/

/-- `MemRead(addr)` (spec/20_memory.md R51): the byte, or MemoryBounds(addr) outside 0..255. -/
def State.memRead (s : State) (addr : Int) : Except CoreFault Byte :=
  if 0 ≤ addr ∧ addr ≤ 255 then .ok (s.mem.read addr.toNat) else .error (.memoryBounds addr)

/-- `MemWrite(addr, v)` (spec/20_memory.md R52): one cell set, or MemoryBounds(addr) outside 0..255. No
address is write-protected. -/
def State.memWrite (s : State) (addr : Int) (v : Byte) : Except CoreFault State :=
  if 0 ≤ addr ∧ addr ≤ 255 then .ok (s.setCell addr.toNat v) else .error (.memoryBounds addr)

/-! ## Faults -/

/-- Cause number of a fault kind (spec/60_exceptions.md R220). -/
def CoreFault.cause : CoreFault → Nat
  | .unknownOpcode _ => 1
  | .unsupportedALUOperation => 2
  | .divideByZero _ => 3
  | .moduloByZero _ => 4
  | .memoryBounds _ => 5
  | .registerBounds _ => 6

/-- What `info` records, as an integer (spec/60_exceptions.md R220); none for cause 2. -/
def CoreFault.info : CoreFault → Option Int
  | .unknownOpcode op => some op.toNat
  | .unsupportedALUOperation => none
  | .divideByZero pc => some pc.toNat
  | .moduloByZero pc => some pc.toNat
  | .memoryBounds addr => some addr
  | .registerBounds index => some index.toNat

/-- The recorded cause number, 0 while no fault is recorded (spec/60_exceptions.md R220). -/
def State.cause (s : State) : Nat :=
  match s.fault with
  | none => 0
  | some f => f.cause

/-- `raise F(info)`, taking a fault (spec/60_exceptions.md R228): the record is written and run becomes
FAULTED; pc, ir, halted, registers, flags, memory and output stay (R229). There is no return from it (R230).
DEDUCED, safe (log entry 5): the faulting cycle is a next state of the model. -/
def State.raise (s : State) (f : CoreFault) : State := { s with fault := some f, run := .faulted }

/-! ## The cycle around a handler -/

/-- What a handler that raised nothing hands back (spec/44_execution_loop.md R196): its writes, and whether it
assigned pc. -/
structure Handled where
  state : State
  pcWasSet : Bool
  deriving DecidableEq, Repr

/-- Advance (spec/44_execution_loop.md R197): pc + len unless the handler set pc; the 9-bit sum is not reduced
modulo 256. DESIGN CHOICE, unsafe (log entry 8, decision D7). -/
def advance (len : Nat) (h : Handled) : State :=
  if h.pcWasSet then h.state else h.state.setPc (h.state.pc + BitVec.ofNat 9 len)

/-- Halt check (spec/44_execution_loop.md R198). -/
def haltCheck (s : State) : State := if s.halted then { s with run := .halted } else s

/-- The rest of the cycle after the handler has run in state `s` (spec/44_execution_loop.md R199): a raised
fault is taken in `s` with nothing else changed (spec/60_exceptions.md R229), else pc advances and the halt
check is made. DESIGN CHOICE, unsafe as to the state a fault leaves (log entry 16, decision D11); run is not looked at
here, `step` has done so (DESIGN CHOICE, log entry 9). -/
def completeCycle (len : Nat) (s : State) (h : Except CoreFault Handled) : Result :=
  match h with
  | .error f => .next (s.raise f)
  | .ok h => .next (haltCheck (advance len h))

end Sys2Proof.Machine
end

