-- ==== Sys2Proof/Machine/Operands.lean ====
section
/-! DEFINITION. Operand forms: the register operand is the only one that can fail; LDI's immediate is the raw
byte (spec/30_encoding.md R85, R86). -/

namespace Sys2Proof.Machine

/-- `RegIdx(b)` (spec/60_exceptions.md R226): the index, or RegisterBounds(b) for 8..255; nothing is masked.
DESIGN CHOICE, unsafe for a JEQ or JNE not taken (log entry 17, decision D15). -/
def regIdx (b : Byte) : Except CoreFault (Fin 8) :=
  if h : b.toNat < 8 then .ok ⟨b.toNat, h⟩ else .error (.registerBounds b)

/-- The operand byte that names register `i`. -/
def regByte (i : Fin 8) : Byte := BitVec.ofNat 8 i.val

/-- The immediate operand, used as it stands (spec/30_encoding.md R86). -/
def immediate (v : Byte) : Byte := v

end Sys2Proof.Machine
end

