-- ==== Sys2Proof/Machine/Alu.lean ====
section
/-! DEFINITION. The ALU and its 11 instructions (spec/40_alu.md). -/

namespace Sys2Proof.Machine

/-- The closed operation selector (spec/40_alu.md R110, R125): no other operation can be asked for. -/
inductive AluOp where
  | add | sub | mul | div | mod | and | or | xor | not | shl | shr
  deriving DecidableEq, Repr

/-- Exact integer result reduced modulo 256, or the zero-divisor fault of DIV and MOD
(spec/40_alu.md R112 to R123). `p` is the address of the instruction, `va` and `vb` the register values; NOT
does not use `vb`. DESIGN CHOICE, unsafe: integer quotient (log entry 14), unsigned bytes modulo 256 and whole shift
amounts (log entry 15). -/
def aluResult (op : AluOp) (p : Pc) (va vb : Byte) : Except CoreFault Byte :=
  match op with
  | .add => .ok (BitVec.ofNat 8 (va.toNat + vb.toNat))
  | .sub => .ok (BitVec.ofInt 8 ((va.toNat : Int) - (vb.toNat : Int)))
  | .mul => .ok (BitVec.ofNat 8 (va.toNat * vb.toNat))
  | .div =>
    if vb.toNat = 0 then .error (.divideByZero p) else .ok (BitVec.ofNat 8 (va.toNat / vb.toNat))
  | .mod =>
    if vb.toNat = 0 then .error (.moduloByZero p) else .ok (BitVec.ofNat 8 (va.toNat % vb.toNat))
  | .and => .ok (va &&& vb)
  | .or => .ok (va ||| vb)
  | .xor => .ok (va ^^^ vb)
  | .not => .ok (BitVec.ofNat 8 (255 - va.toNat))
  | .shl => .ok (BitVec.ofNat 8 (va.toNat * 2 ^ vb.toNat))
  | .shr => .ok (BitVec.ofNat 8 (va.toNat / 2 ^ vb.toNat))

/-- Handler of the ten two-register ALU instructions (spec/40_alu.md R111): both indices checked, first operand
first, both values read before the one write. -/
def aluTwo (op : AluOp) (opa opb : Byte) (s : State) : Except CoreFault Handled := do
  let a ← regIdx opa
  let b ← regIdx opb
  let v ← aluResult op s.pc (s.reg a) (s.reg b)
  .ok ⟨s.setReg a v, false⟩

/-- Handler of NOT, the unary case (spec/40_alu.md R120). -/
def aluOne (op : AluOp) (opa : Byte) (s : State) : Except CoreFault Handled := do
  let a ← regIdx opa
  let v ← aluResult op s.pc (s.reg a) (s.reg a)
  .ok ⟨s.setReg a v, false⟩

/-- ADD a, b (spec/40_alu.md R112). -/
def execAdd (a b : Byte) (s : State) : Result :=
  completeCycle (Instr.add a b).length s (aluTwo .add a b s)

/-- SUB a, b (spec/40_alu.md R113). -/
def execSub (a b : Byte) (s : State) : Result :=
  completeCycle (Instr.sub a b).length s (aluTwo .sub a b s)

/-- MUL a, b (spec/40_alu.md R114). -/
def execMul (a b : Byte) (s : State) : Result :=
  completeCycle (Instr.mul a b).length s (aluTwo .mul a b s)

/-- DIV a, b (spec/40_alu.md R115). -/
def execDiv (a b : Byte) (s : State) : Result :=
  completeCycle (Instr.div a b).length s (aluTwo .div a b s)

/-- MOD a, b (spec/40_alu.md R116). -/
def execMod (a b : Byte) (s : State) : Result :=
  completeCycle (Instr.mod a b).length s (aluTwo .mod a b s)

/-- AND a, b (spec/40_alu.md R117). -/
def execAnd (a b : Byte) (s : State) : Result :=
  completeCycle (Instr.and a b).length s (aluTwo .and a b s)

/-- OR a, b (spec/40_alu.md R118). -/
def execOr (a b : Byte) (s : State) : Result :=
  completeCycle (Instr.or a b).length s (aluTwo .or a b s)

/-- XOR a, b (spec/40_alu.md R119). -/
def execXor (a b : Byte) (s : State) : Result :=
  completeCycle (Instr.xor a b).length s (aluTwo .xor a b s)

/-- NOT a (spec/40_alu.md R120). -/
def execNot (a : Byte) (s : State) : Result :=
  completeCycle (Instr.not a).length s (aluOne .not a s)

/-- SHL a, b (spec/40_alu.md R121). -/
def execShl (a b : Byte) (s : State) : Result :=
  completeCycle (Instr.shl a b).length s (aluTwo .shl a b s)

/-- SHR a, b (spec/40_alu.md R122). -/
def execShr (a b : Byte) (s : State) : Result :=
  completeCycle (Instr.shr a b).length s (aluTwo .shr a b s)

end Sys2Proof.Machine
end

