-- ==== Sys2Proof/Machine/Basic.lean ====
section
/-! DEFINITION. The instructions of spec/43_core.md: HLT, LDI, PRN. -/

namespace Sys2Proof.Machine

/-- Handler of HLT (spec/43_core.md R180). -/
def handleHlt (s : State) : Except CoreFault Handled := .ok ⟨s.setHalted, false⟩

/-- Handler of LDI (spec/43_core.md R181): only the first operand byte is a register index. -/
def handleLdi (opa opb : Byte) (s : State) : Except CoreFault Handled := do
  let r ← regIdx opa
  .ok ⟨s.setReg r (immediate opb), false⟩

/-- Handler of PRN (spec/43_core.md R182). -/
def handlePrn (opa : Byte) (s : State) : Except CoreFault Handled := do
  let r ← regIdx opa
  .ok ⟨s.emit (s.reg r), false⟩

/-- HLT (spec/43_core.md R180). -/
def execHlt (s : State) : Result :=
  completeCycle Instr.hlt.length s (handleHlt s)

/-- LDI r, v (spec/43_core.md R181). -/
def execLdi (r v : Byte) (s : State) : Result :=
  completeCycle (Instr.ldi r v).length s (handleLdi r v s)

/-- PRN r (spec/43_core.md R182). -/
def execPrn (r : Byte) (s : State) : Result :=
  completeCycle (Instr.prn r).length s (handlePrn r s)

end Sys2Proof.Machine
end

