-- ==== Sys2Proof/Machine/Flags.lean ====
section
/-! DEFINITION. The comparison flags (spec/10_state.md R29, R30). There is no other flag. -/

namespace Sys2Proof.Machine

/-- Only EQUAL set (bit 0). -/
def flEqual : Flags := 0b001#3

/-- Only LESS_THAN set (bit 1). -/
def flLess : Flags := 0b010#3

/-- Only GREATER_THAN set (bit 2). -/
def flGreater : Flags := 0b100#3

/-- What CMP writes for the unsigned values `p` and `q` (spec/42_compare_branch.md R160). DESIGN CHOICE, unsafe: the
comparison is unsigned (log entry 15, decision D16). -/
def compareFlags (p q : Byte) : Flags :=
  if p.toNat > q.toNat then flGreater
  else if p.toNat < q.toNat then flLess
  else flEqual

/-- The EQUAL bit, the one JEQ and JNE read (spec/10_state.md R30). -/
def State.equalFlag (s : State) : Bool := s.fl.getLsbD 0

end Sys2Proof.Machine
end

