-- ==== Sys2Proof/Machine/Branch.lean ====
section
/-! DEFINITION. The compare and branch instructions (spec/42_compare_branch.md). -/

namespace Sys2Proof.Machine

/-- Handler of CMP (spec/42_compare_branch.md R160). -/
def handleCmp (opa opb : Byte) (s : State) : Except CoreFault Handled := do
  let a ← regIdx opa
  let b ← regIdx opb
  .ok ⟨s.setFl (compareFlags (s.reg a) (s.reg b)), false⟩

/-- Handler of a jump to `x[r]` taken when `taken` holds (spec/42_compare_branch.md R161 to R164): the index is
checked either way, and the report `pc_was_set` says whether pc was assigned. -/
def jumpIf (taken : Bool) (opa : Byte) (s : State) : Except CoreFault Handled := do
  let r ← regIdx opa
  if taken then .ok ⟨s.setPcByte (s.reg r), true⟩ else .ok ⟨s, false⟩

/-- CMP a, b (spec/42_compare_branch.md R160). -/
def execCmp (a b : Byte) (s : State) : Result :=
  completeCycle (Instr.cmp a b).length s (handleCmp a b s)

/-- JMP r (spec/42_compare_branch.md R161). -/
def execJmp (r : Byte) (s : State) : Result :=
  completeCycle (Instr.jmp r).length s (jumpIf true r s)

/-- JEQ r (spec/42_compare_branch.md R162): taken when EQUAL is set. -/
def execJeq (r : Byte) (s : State) : Result :=
  completeCycle (Instr.jeq r).length s (jumpIf s.equalFlag r s)

/-- JNE r (spec/42_compare_branch.md R163): taken when EQUAL is clear. -/
def execJne (r : Byte) (s : State) : Result :=
  completeCycle (Instr.jne r).length s (jumpIf (!s.equalFlag) r s)

end Sys2Proof.Machine
end

