-- ==== Sys2Proof/Machine/Stack.lean ====
section
/-! DEFINITION. The stack and subroutine instructions (spec/41_stack_subroutine.md). -/

namespace Sys2Proof.Machine

/-- SP after the implicit decrement, which faults at 0x00 and never wraps (spec/41_stack_subroutine.md R140).
DESIGN CHOICE, unsafe (log entry 13, decision D13). -/
def spDecrement (s : State) : Except CoreFault Byte :=
  if s.sp.toNat = 0 then .error (.memoryBounds (-1)) else .ok (s.sp - 1#8)

/-- SP after the implicit increment of `base`, which faults at 0xFF and never wraps
(spec/41_stack_subroutine.md R140). DESIGN CHOICE, unsafe (log entry 13, decision D13). -/
def spIncrement (base : Byte) : Except CoreFault Byte :=
  if base.toNat = 255 then .error (.memoryBounds 256) else .ok (base + 1#8)

/-- `reg[r]` read after SP has been decremented to `sp1` (spec/41_stack_subroutine.md R141, R143). -/
def regAfterDecrement (s : State) (r : Fin 8) (sp1 : Byte) : Byte :=
  if r = Config.spIndex then sp1 else s.reg r

/-- Handler of PUSH (spec/41_stack_subroutine.md R141). -/
def handlePush (opa : Byte) (s : State) : Except CoreFault Handled := do
  let r ← regIdx opa
  let sp1 ← spDecrement s
  let t ← s.memWrite sp1.toNat (regAfterDecrement s r sp1)
  .ok ⟨t.setSp sp1, false⟩

/-- Handler of POP (spec/41_stack_subroutine.md R142): POP R7 increments the value just loaded. -/
def handlePop (opa : Byte) (s : State) : Except CoreFault Handled := do
  let r ← regIdx opa
  let v ← s.memRead s.sp.toNat
  let sp1 ← spIncrement (if r = Config.spIndex then v else s.sp)
  .ok ⟨(s.setReg r v).setSp sp1, false⟩

/-- CALL's return address `pc + 2` as a byte, or MemoryBounds(pc + 2) where it is no memory address
(spec/41_stack_subroutine.md R143). DESIGN CHOICE, unsafe (log entry 13, decision D14). -/
def returnAddress (s : State) : Except CoreFault Byte :=
  if s.pc.toNat + 2 > 255 then .error (.memoryBounds ((s.pc.toNat : Int) + 2))
  else .ok (BitVec.ofNat 8 (s.pc.toNat + 2))

/-- Handler of CALL (spec/41_stack_subroutine.md R143). -/
def handleCall (opa : Byte) (s : State) : Except CoreFault Handled := do
  let r ← regIdx opa
  let sp1 ← spDecrement s
  let ret ← returnAddress s
  let t ← s.memWrite sp1.toNat ret
  .ok ⟨(t.setSp sp1).setPcByte (regAfterDecrement s r sp1), true⟩

/-- Handler of RET (spec/41_stack_subroutine.md R144). -/
def handleRet (s : State) : Except CoreFault Handled := do
  let t ← s.memRead s.sp.toNat
  let sp1 ← spIncrement s.sp
  .ok ⟨(s.setPcByte t).setSp sp1, true⟩

/-- PUSH r (spec/41_stack_subroutine.md R141). -/
def execPush (r : Byte) (s : State) : Result :=
  completeCycle (Instr.push r).length s (handlePush r s)

/-- POP r (spec/41_stack_subroutine.md R142). -/
def execPop (r : Byte) (s : State) : Result :=
  completeCycle (Instr.pop r).length s (handlePop r s)

/-- CALL r (spec/41_stack_subroutine.md R143). -/
def execCall (r : Byte) (s : State) : Result :=
  completeCycle (Instr.call r).length s (handleCall r s)

/-- RET (spec/41_stack_subroutine.md R144). -/
def execRet (s : State) : Result :=
  completeCycle Instr.ret.length s (handleRet s)

end Sys2Proof.Machine
end

