-- ==== Sys2Proof/Machine/Fetch.lean ====
section
/-! DEFINITION. The fetch unit and what precedes a handler in a cycle (spec/44_execution_loop.md R192 to R195). -/

namespace Sys2Proof.Machine

/-- The fault a step answers on a core that is not RUNNING: it performs no cycle
(spec/44_execution_loop.md R190, R199). DEDUCED, safe (log entry 5). -/
def stopped (s : State) : Option Fault :=
  match s.run with
  | .running => none
  | .halted => some .coreHalted
  | .faulted => some .coreFaulted

/-- Opcode fetch (spec/44_execution_loop.md R192): MemoryBounds(pc) above 255 with ir kept, else ir gets M[pc]. -/
def fetchOpcode (s : State) : Except CoreFault State := do
  let b ← s.memRead s.pc.toNat
  .ok (s.setIr b)

/-- The bytes of memory at `addr`, `addr + 1`, ..., `n` of them, less those at addresses that do not exist. -/
def bytesFrom (s : State) : Nat → Nat → List Byte
  | _, 0 => []
  | addr, n + 1 => if addr < Config.memSize then s.mem.read addr :: bytesFrom s (addr + 1) n else []

/-- What the decoder may look at: ir, then the bytes at pc + 1 and pc + 2 that exist. It looks only at those the
instruction has (spec/44_execution_loop.md R195, spec/30_encoding.md R91). DEDUCED, unsafe in one corner at the top of memory (log entry 7, decision D8). -/
def fetchWindow (s : State) : List Byte := s.ir :: bytesFrom s (s.pc.toNat + 1) 2

/-- The fault for a window that decodes to nothing (spec/44_execution_loop.md R194, R195): operand `k` lies at
pc + k. The window is never empty, so the first case cannot arise. -/
def decodeFault (p : Pc) : DecodeError → CoreFault
  | .noOpcode => .memoryBounds p.toNat
  | .unknownOpcode b => .unknownOpcode b
  | .missingOperand k => .memoryBounds ((p.toNat : Int) + k)

/-- Decode, dispatch lookup and operand fetch, after ir is written (spec/44_execution_loop.md R193 to R195). -/
def fetchInstr (s : State) : Except CoreFault Instr :=
  match decode (fetchWindow s) with
  | .error e => .error (decodeFault s.pc e)
  | .ok i => .ok i

/-- A cycle up to the handler: the instruction and the state its handler starts in, or the state a fetch fault
leaves (spec/44_execution_loop.md R199). -/
def fetchPhase (s : State) : Except State (Instr × State) :=
  match fetchOpcode s with
  | .error f => .error (s.raise f)
  | .ok s1 =>
    match fetchInstr s1 with
    | .error f => .error (s1.raise f)
    | .ok i => .ok (i, s1)

/-- The bytes put where the next cycle fetches them; cells that do not exist are passed over. -/
def placeAtPc (s : State) (bytes : List Byte) : State :=
  { s with mem := s.mem.place bytes s.pc.toNat }

end Sys2Proof.Machine
end

