-- ==== Sys2Proof/Machine/Step.lean ====
section
/-! DEFINITION. One step: one whole instruction cycle (spec/44_execution_loop.md R199). -/

namespace Sys2Proof.Machine

/-- `Step` (spec/44_execution_loop.md R199): on a RUNNING core the cycle, in which a raised fault is a next state
with run = FAULTED; on a core in a terminal state no cycle exists and the step stops. -/
def step (s : State) : Host.Outcome State Fault Refusal :=
  match stopped s with
  | some f => .fault f
  | none =>
    match fetchPhase s with
    | .error t => .next t
    | .ok (i, s1) => exec i s1

/-- The state with an instruction, numbered as spec/opcode_table.json numbers its bits, stored at pc, where the
next step fetches it. It stands for the load of a program (log entry 10); nothing but memory changes. -/
def State.withFetchWord (s : State) (nbits w : Nat) : State := placeAtPc s (wordBytes nbits w)

end Sys2Proof.Machine
end

