-- ==== Sys2Proof/Machine/Boot.lean ====
section
/-! DEFINITION. What the environment does to the core and gets from it (spec/20_memory.md R65 to R67). -/

namespace Sys2Proof.Machine

/-- Reset, then the one load of an image from address 0 (spec/70_reset_and_hazards.md R260, R261,
spec/20_memory.md R65); an image of more than 256 bytes is refused (R66). Only memory is written by the load.
DESIGN CHOICE, safe (log entry 20, decisions D19 and D24). -/
def boot (c : Config) (image : List Byte) : Result :=
  if image.length ≤ Config.memSize then
    .next { State.resetWith c with mem := (State.resetWith c).mem.place image Config.loadBase }
  else .refused (.imageTooLong image.length)

/-- Reset of an existing core: the only way out of HALTED and FAULTED, everything set to its reset value
(spec/70_reset_and_hazards.md R260); a RUNNING core cannot be reset (spec/20_memory.md R67).
DEDUCED, safe (log entry 11). -/
def hostReset (c : Config) (s : State) : Result :=
  match s.run with
  | .running => .refused .resetWhileRunning
  | .halted => .next (State.resetWith c)
  | .faulted => .next (State.resetWith c)

/-- What the environment observes at the end of a run (spec/20_memory.md R67, spec/60_exceptions.md R235): the
run state, and after FAULTED the record as cause number and info; nothing while RUNNING. -/
def endOfRun (s : State) : Option (RunState × Option (Nat × Option Int)) :=
  match s.run with
  | .running => none
  | .halted => some (.halted, none)
  | .faulted => some (.faulted, s.fault.map fun f => (f.cause, f.info))

end Sys2Proof.Machine
end

