-- ==== Sys2Proof/Safety.lean ====
section
/-! DEFINITION. Runs, their ends, and the invariant of the machine. -/

namespace Sys2Proof.Machine

/-- A run that ended by HLT (spec/44_execution_loop.md R201). -/
def CleanHalt (s : State) : Prop := s.run = .halted

/-- A run that ended by a fatal error (spec/44_execution_loop.md R201). -/
def Failed (s : State) : Prop := s.run = .faulted

/-- States a run can be in: reset and load, then steps (spec/44_execution_loop.md R201). -/
inductive Reachable (c : Config) : State → Prop
  | boot {image : List Byte} {s : State} : boot c image = .next s → Reachable c s
  | step {s t : State} : Reachable c s → step s = .next t → Reachable c t

/-- A run of at most `fuel` steps from a state, ending early in a terminal state
(spec/70_reset_and_hazards.md R268: a runner takes a fuel bound). -/
def runFor : Nat → State → State
  | 0, s => s
  | fuel + 1, s =>
    match step s with
    | .next t => runFor fuel t
    | .fault _ => s
    | .refused _ => s

/-- The flag field holds its reset value or exactly one bit (spec/10_state.md R29). -/
def FlagsLegal (c : Config) (f : Flags) : Prop :=
  f = c.flReset ∨ f = flEqual ∨ f = flLess ∨ f = flGreater

/-- A fault record together with the pc and ir it leaves, within the ranges of spec/60_exceptions.md R220 and
R225; UnsupportedALUOperation is never recorded (R222). -/
def RecordLegal (s : State) : CoreFault → Prop
  | .unknownOpcode op => isOpcode op = false ∧ s.ir = op
  | .unsupportedALUOperation => False
  | .divideByZero p => p = s.pc ∧ p.toNat ≤ 253 ∧ s.ir = 0xA3#8
  | .moduloByZero p => p = s.pc ∧ p.toNat ≤ 253 ∧ s.ir = 0xA4#8
  | .memoryBounds a => a = -1 ∨ a = 256 ∨ a = 257 ∨ a = 258
  | .registerBounds b => 8 ≤ b.toNat

/-- The invariant of the core at cycle boundaries. -/
structure Inv (c : Config) (s : State) : Prop where
  /-- Memory keeps its canonical form. -/
  memory : Memory.wf s.mem = true
  /-- pc takes values 0..258 only (spec/10_state.md R27). -/
  pcRange : s.pc.toNat ≤ 258
  /-- Reachable flag values (spec/10_state.md R29). -/
  flags : FlagsLegal c s.fl
  /-- run is HALTED exactly when halted is true (spec/10_state.md R32). -/
  haltedRun : s.run = .halted ↔ s.halted = true
  /-- A record exists exactly when run is FAULTED (spec/10_state.md R33). -/
  faultedRun : s.run = .faulted ↔ s.fault.isSome = true
  /-- A record is within its ranges (spec/60_exceptions.md R220, R225). -/
  record : ∀ f, s.fault = some f → RecordLegal s f

end Sys2Proof.Machine
end

