-- ==== Sys2Proof/Certificates/Slice0/Obligations.lean ====
section
/-! DEFINITION. The statements for the provers. `s.halted = false` and `Memory.wf s.mem = true` stand as premises
only where a state that no run reaches would break the statement: both are part of the invariant `Inv`, which
`Obligations.StepKeepsInv` and `Obligations.ResetMeetsInv` state. -/

open Sys2Proof Sys2Proof.Machine

/-! ## Encoding -/

/-- spec/30_encoding.md R80, R91: a list of bytes decodes to an instruction exactly when that instruction's
encoding stands at its front. The opcode byte values are PRESUMED (log entry 1). -/
def Obligations.DecodeExactlyTheEncodings : Prop :=
  ∀ (bs : List Byte) (i : Instr), decode bs = .ok i ↔ encode i <+: bs

/-- spec/30_encoding.md R89: the first byte is refused as an unknown opcode exactly when it is none of the 22
values. The values are PRESUMED (log entry 1). -/
def Obligations.UnknownOpcodesRefused : Prop :=
  ∀ (b : Byte) (rest : List Byte), decode (b :: rest) = .error (.unknownOpcode b) ↔
    b ∉ [0x01#8, 0x11#8, 0x45#8, 0x46#8, 0x47#8, 0x50#8, 0x54#8, 0x55#8, 0x56#8, 0x69#8, 0x82#8, 0xA0#8, 0xA1#8,
      0xA2#8, 0xA3#8, 0xA4#8, 0xA7#8, 0xA8#8, 0xAA#8, 0xAB#8, 0xAC#8, 0xAD#8]

/-- spec/30_encoding.md R87: a few words written out from the opcode map (values PRESUMED, log entry 1). -/
def Obligations.HandWrittenWordsDecode : Prop :=
  decode [0b00000001#8] = .ok .hlt ∧
  decode [0b01000101#8, 0b00000011#8] = .ok (.push 3) ∧
  decode [0b01010101#8, 0b00000010#8] = .ok (.jeq 2) ∧
  decode [0b10000010#8, 0b00000000#8, 0b00001000#8] = .ok (.ldi 0 8) ∧
  decode [0b10100000#8, 0b00000000#8, 0b00000001#8] = .ok (.add 0 1) ∧
  decode [0b10100111#8, 0b00000111#8, 0b00000010#8] = .ok (.cmp 7 2) ∧
  decodeTableWord 8 0x69 = some (.not 0)

/-- spec/30_encoding.md R82: bit 4 of the opcode byte is set for exactly CALL, RET, JMP, JEQ and JNE. The byte
values are PRESUMED (log entry 1). -/
def Obligations.SetsPcFlagMarksFive : Prop :=
  ∀ i : Instr, setsPcFlag i.opcode = true ↔
    i = .ret ∨ ∃ r, i = .call r ∨ i = .jmp r ∨ i = .jeq r ∨ i = .jne r

/-! ## Fetch and step -/

/-- spec/44_execution_loop.md R199: when the bytes at pc decode to an instruction, the step is that instruction
run in the state whose ir holds the opcode byte. -/
def Obligations.StepRunsTheDecodedInstruction : Prop :=
  ∀ (s : State) (i : Instr), s.run = .running → s.pc.toNat ≤ 255 →
    decode (fetchWindow { s with ir := s.mem.read s.pc.toNat }) = .ok i →
    step s = exec i { s with ir := s.mem.read s.pc.toNat }

/-- spec/20_memory.md R54, spec/44_execution_loop.md R195: with an instruction's own bytes in memory at pc,
whatever follows them and wherever memory ends, the step runs it. That an instruction at the top of memory runs
whatever lies beyond its own bytes is decision D8 (DEDUCED, log entry 7). -/
def Obligations.StepRunsTheEncodedInstruction : Prop :=
  ∀ (s : State) (i : Instr), s.run = .running →
    (∀ (k : Nat) (b : Byte), (encode i)[k]? = some b →
      s.pc.toNat + k ≤ 255 ∧ s.mem.read (s.pc.toNat + k) = b) →
    step s = exec i { s with ir := i.opcode }

/-- spec/44_execution_loop.md R192, R195, spec/60_exceptions.md R225: a cycle that starts above 255 takes
MemoryBounds(pc) and leaves ir; a known opcode whose own operand bytes pass the top of memory takes
MemoryBounds(256) with ir holding the opcode. That a pc above 255 faults at the fetch and does not wrap is decision D7
(DESIGN CHOICE, log entry 8), that only the instruction's own operand bytes count is decision D8 (DEDUCED, log
entry 7). -/
def Obligations.FetchOutOfBounds : Prop :=
  (∀ s : State, s.run = .running → 255 < s.pc.toNat →
    step s = .next { s with fault := some (.memoryBounds s.pc.toNat), run := .faulted }) ∧
  (∀ (s : State) (i : Instr), s.run = .running → s.pc.toNat ≤ 255 → s.mem.read s.pc.toNat = i.opcode →
    256 < s.pc.toNat + i.length →
    step s = .next { s with ir := i.opcode, fault := some (.memoryBounds 256), run := .faulted })

/-- spec/44_execution_loop.md R194, R195: a byte that is none of the 22 opcodes takes UnknownOpcode, whatever
follows it, with ir holding the byte and pc kept. The 22 values are PRESUMED (log entry 1). -/
def Obligations.UnknownOpcodeFaultTaken : Prop :=
  ∀ s : State, s.run = .running → s.pc.toNat ≤ 255 →
    s.mem.read s.pc.toNat ∉ [0x01#8, 0x11#8, 0x45#8, 0x46#8, 0x47#8, 0x50#8, 0x54#8, 0x55#8, 0x56#8, 0x69#8, 0x82#8,
      0xA0#8, 0xA1#8, 0xA2#8, 0xA3#8, 0xA4#8, 0xA7#8, 0xA8#8, 0xAA#8, 0xAB#8, 0xAC#8, 0xAD#8] →
    step s = .next { s with ir := s.mem.read s.pc.toNat,
                            fault := some (.unknownOpcode (s.mem.read s.pc.toNat)), run := .faulted }

/-- spec/10_state.md R32: a core in a terminal state performs no cycle. DEDUCED (log entry 5): the model answers
a stop by name. -/
def Obligations.TerminalStatesTakeNoStep : Prop :=
  ∀ s : State, (s.run = .halted → step s = .fault .coreHalted) ∧ (s.run = .faulted → step s = .fault .coreFaulted)

/-- spec/44_execution_loop.md R199: `Step` is total on RUNNING states. -/
def Obligations.RunningStepsAreTotal : Prop :=
  ∀ s : State, s.run = .running → ∃ t, step s = .next t

/-- spec/44_execution_loop.md R197: an instruction that completes with the sets-PC flag clear, or a JEQ or JNE
not taken, leaves pc at the address plus its length, not reduced modulo 256. That the sum is not reduced is decision D7
(DESIGN CHOICE, log entry 8). -/
def Obligations.PcAdvancesByLength : Prop :=
  ∀ (i : Instr) (s t : State), s.run = .running → s.pc.toNat ≤ 255 → exec i s = .next t → t.run ≠ .faulted →
    (setsPcFlag i.opcode = false ∨ (∃ r, i = .jeq r ∧ s.fl.getLsbD 0 = false) ∨
      (∃ r, i = .jne r ∧ s.fl.getLsbD 0 = true)) →
    t.pc.toNat = s.pc.toNat + i.length

/-! ## Memory primitives -/

/-- spec/20_memory.md R51. -/
def Obligations.MemReadInAndOutOfBounds : Prop :=
  ∀ (s : State) (addr : Int),
    (0 ≤ addr → addr ≤ 255 → s.memRead addr = .ok (s.mem.read addr.toNat)) ∧
    (addr < 0 ∨ 255 < addr → s.memRead addr = .error (.memoryBounds addr))

/-- spec/20_memory.md R52. -/
def Obligations.MemWriteSetsOneCell : Prop :=
  ∀ (s : State) (addr : Int) (v : Byte), Memory.wf s.mem = true →
    (0 ≤ addr → addr ≤ 255 → ∃ t, s.memWrite addr v = .ok t ∧ t = { s with mem := t.mem } ∧
      t.mem.read addr.toNat = v ∧ (∀ a, a ≠ addr.toNat → t.mem.read a = s.mem.read a) ∧
      Memory.wf t.mem = true) ∧
    (addr < 0 ∨ 255 < addr → s.memWrite addr v = .error (.memoryBounds addr))

/-! ## Results: ALU -/

/-- spec/40_alu.md R112: ADD. Reduction modulo 256 is decision D5 (log entry 15). -/
def Obligations.AddResult : Prop :=
  ∀ (s : State) (a b : Fin 8), s.halted = false →
    ∃ v : Byte, v.toNat = ((s.reg a).toNat + (s.reg b).toNat) % 256 ∧
      exec (.add (regByte a) (regByte b)) s = .next { s with x := s.x.set a v, pc := s.pc + 3 }

/-- spec/40_alu.md R113: SUB. Reduction modulo 256 is decision D5 (log entry 15). -/
def Obligations.SubResult : Prop :=
  ∀ (s : State) (a b : Fin 8), s.halted = false →
    ∃ v : Byte, (v.toNat : Int) = ((s.reg a).toNat - (s.reg b).toNat : Int) % 256 ∧
      exec (.sub (regByte a) (regByte b)) s = .next { s with x := s.x.set a v, pc := s.pc + 3 }

/-- spec/40_alu.md R114: MUL. Reduction modulo 256 is decision D5 (log entry 15). -/
def Obligations.MulResult : Prop :=
  ∀ (s : State) (a b : Fin 8), s.halted = false →
    ∃ v : Byte, v.toNat = ((s.reg a).toNat * (s.reg b).toNat) % 256 ∧
      exec (.mul (regByte a) (regByte b)) s = .next { s with x := s.x.set a v, pc := s.pc + 3 }

/-- spec/40_alu.md R115: DIV by a non-zero divisor. The integer part is decision D6 (log entry 14). -/
def Obligations.DivResult : Prop :=
  ∀ (s : State) (a b : Fin 8), s.halted = false → (s.reg b).toNat ≠ 0 →
    ∃ v : Byte, v.toNat = (s.reg a).toNat / (s.reg b).toNat ∧
      exec (.div (regByte a) (regByte b)) s = .next { s with x := s.x.set a v, pc := s.pc + 3 }

/-- spec/40_alu.md R116: MOD by a non-zero divisor. -/
def Obligations.ModResult : Prop :=
  ∀ (s : State) (a b : Fin 8), s.halted = false → (s.reg b).toNat ≠ 0 →
    ∃ v : Byte, v.toNat = (s.reg a).toNat % (s.reg b).toNat ∧
      exec (.mod (regByte a) (regByte b)) s = .next { s with x := s.x.set a v, pc := s.pc + 3 }

/-- spec/40_alu.md R115, R116, R223, R224: a zero divisor takes the fault of DIV or of MOD, with the address of
the instruction, and changes nothing else (precision is decision D11, log entry 16). -/
def Obligations.ZeroDivisorFaults : Prop :=
  ∀ (s : State) (a b : Fin 8), (s.reg b).toNat = 0 →
    exec (.div (regByte a) (regByte b)) s = .next { s with fault := some (.divideByZero s.pc), run := .faulted } ∧
    exec (.mod (regByte a) (regByte b)) s = .next { s with fault := some (.moduloByZero s.pc), run := .faulted }

/-- spec/40_alu.md R116: from one state, divisor times quotient plus remainder is the dividend, and the
remainder is below the divisor. -/
def Obligations.DivModIdentity : Prop :=
  ∀ (s : State) (a b : Fin 8), (s.reg b).toNat ≠ 0 →
    ∃ t u, exec (.div (regByte a) (regByte b)) s = .next t ∧ exec (.mod (regByte a) (regByte b)) s = .next u ∧
      (s.reg b).toNat * (t.reg a).toNat + (u.reg a).toNat = (s.reg a).toNat ∧
      (u.reg a).toNat < (s.reg b).toNat

/-- spec/40_alu.md R117, R118, R119: AND, OR and XOR, bit by bit. -/
def Obligations.BitwiseResults : Prop :=
  ∀ (s : State) (a b : Fin 8), s.halted = false →
    (∃ v : Byte, (∀ k < 8, v.getLsbD k = ((s.reg a).getLsbD k && (s.reg b).getLsbD k)) ∧
      exec (.and (regByte a) (regByte b)) s = .next { s with x := s.x.set a v, pc := s.pc + 3 }) ∧
    (∃ v : Byte, (∀ k < 8, v.getLsbD k = ((s.reg a).getLsbD k || (s.reg b).getLsbD k)) ∧
      exec (.or (regByte a) (regByte b)) s = .next { s with x := s.x.set a v, pc := s.pc + 3 }) ∧
    (∃ v : Byte, (∀ k < 8, v.getLsbD k = ((s.reg a).getLsbD k != (s.reg b).getLsbD k)) ∧
      exec (.xor (regByte a) (regByte b)) s = .next { s with x := s.x.set a v, pc := s.pc + 3 })

/-- spec/40_alu.md R120: NOT. Its length of 2 bytes is decision D22 (log entry 18). -/
def Obligations.NotResult : Prop :=
  ∀ (s : State) (a : Fin 8), s.halted = false →
    ∃ v : Byte, v.toNat + (s.reg a).toNat = 255 ∧ (∀ k < 8, v.getLsbD k = !(s.reg a).getLsbD k) ∧
      exec (.not (regByte a)) s = .next { s with x := s.x.set a v, pc := s.pc + 2 }

/-- spec/40_alu.md R121: SHL by the whole of the second register; 8 or more gives 0 (decision D26, log
entry 15). -/
def Obligations.ShlResult : Prop :=
  ∀ (s : State) (a b : Fin 8), s.halted = false →
    ∃ v : Byte, v.toNat = ((s.reg a).toNat * 2 ^ (s.reg b).toNat) % 256 ∧ (8 ≤ (s.reg b).toNat → v = 0) ∧
      exec (.shl (regByte a) (regByte b)) s = .next { s with x := s.x.set a v, pc := s.pc + 3 }

/-- spec/40_alu.md R122: SHR, logical, by the whole of the second register; 8 or more gives 0 (decision D26,
log entry 15). -/
def Obligations.ShrResult : Prop :=
  ∀ (s : State) (a b : Fin 8), s.halted = false →
    ∃ v : Byte, v.toNat = (s.reg a).toNat / 2 ^ (s.reg b).toNat ∧ (8 ≤ (s.reg b).toNat → v = 0) ∧
      exec (.shr (regByte a) (regByte b)) s = .next { s with x := s.x.set a v, pc := s.pc + 3 }

/-! ## Results: compare, branch, core -/

/-- spec/42_compare_branch.md R160: CMP; unsigned by decision D16 (log entry 15). -/
def Obligations.CmpResult : Prop :=
  ∀ (s : State) (a b : Fin 8), s.halted = false →
    ∃ f : Flags, ((s.reg b).toNat < (s.reg a).toNat → f = 0b100#3) ∧
      ((s.reg a).toNat < (s.reg b).toNat → f = 0b010#3) ∧ ((s.reg a).toNat = (s.reg b).toNat → f = 0b001#3) ∧
      exec (.cmp (regByte a) (regByte b)) s = .next { s with fl := f, pc := s.pc + 3 }

/-- spec/42_compare_branch.md R165: comparing the other way round swaps LESS_THAN and GREATER_THAN and keeps
EQUAL; exactly one bit is ever set. -/
def Obligations.CmpAntisymmetricTotal : Prop :=
  ∀ (s : State) (a b : Fin 8),
    ∃ t u, exec (.cmp (regByte a) (regByte b)) s = .next t ∧ exec (.cmp (regByte b) (regByte a)) t = .next u ∧
      (t.fl = 0b001#3 ∨ t.fl = 0b010#3 ∨ t.fl = 0b100#3) ∧
      (t.fl = 0b100#3 ↔ u.fl = 0b010#3) ∧ (t.fl = 0b010#3 ↔ u.fl = 0b100#3) ∧ (t.fl = 0b001#3 ↔ u.fl = 0b001#3)

/-- spec/42_compare_branch.md R161: JMP. -/
def Obligations.JmpResult : Prop :=
  ∀ (s : State) (r : Fin 8), s.halted = false →
    ∃ p : Pc, p.toNat = (s.reg r).toNat ∧ exec (.jmp (regByte r)) s = .next { s with pc := p }

/-- spec/42_compare_branch.md R162, spec/70_reset_and_hazards.md R264: JEQ taken, and not taken advancing
by 2. That the not-taken advance is 2, where a remark of the source says 3, is the resolution of conflict C1 (DESIGN
CHOICE, log entry 18). -/
def Obligations.JeqResult : Prop :=
  ∀ (s : State) (r : Fin 8), s.halted = false →
    (s.fl.getLsbD 0 = true →
      ∃ p : Pc, p.toNat = (s.reg r).toNat ∧ exec (.jeq (regByte r)) s = .next { s with pc := p }) ∧
    (s.fl.getLsbD 0 = false → exec (.jeq (regByte r)) s = .next { s with pc := s.pc + 2 })

/-- spec/42_compare_branch.md R163, spec/70_reset_and_hazards.md R264: JNE taken, and not taken advancing
by 2. That the not-taken advance is 2, where a remark of the source says 3, is the resolution of conflict C1 (DESIGN
CHOICE, log entry 18). -/
def Obligations.JneResult : Prop :=
  ∀ (s : State) (r : Fin 8), s.halted = false →
    (s.fl.getLsbD 0 = false →
      ∃ p : Pc, p.toNat = (s.reg r).toNat ∧ exec (.jne (regByte r)) s = .next { s with pc := p }) ∧
    (s.fl.getLsbD 0 = true → exec (.jne (regByte r)) s = .next { s with pc := s.pc + 2 })

/-- spec/43_core.md R180: HLT sets the halted bit, advances pc by 1 and ends the run. -/
def Obligations.HltResult : Prop :=
  ∀ s : State, exec .hlt s = .next { s with halted := true, pc := s.pc + 1, run := .halted }

/-- spec/43_core.md R181: LDI, for every immediate byte. -/
def Obligations.LdiResult : Prop :=
  ∀ (s : State) (r : Fin 8) (v : Byte), s.halted = false →
    exec (.ldi (regByte r) v) s = .next { s with x := s.x.set r v, pc := s.pc + 3 }

/-- spec/43_core.md R182: PRN. -/
def Obligations.PrnResult : Prop :=
  ∀ (s : State) (r : Fin 8), s.halted = false →
    exec (.prn (regByte r)) s = .next { s with out := s.out ++ [s.reg r], pc := s.pc + 2 }

/-! ## Results: stack -/

/-- spec/41_stack_subroutine.md R141: PUSH, every register, R7 storing the decremented SP. -/
def Obligations.PushResult : Prop :=
  ∀ (s : State) (r : Fin 8), s.halted = false → s.sp.toNat ≠ 0 →
    ∃ sp1 : Byte, sp1.toNat + 1 = s.sp.toNat ∧
      exec (.push (regByte r)) s = .next { s with
        mem := s.mem.write sp1.toNat (if r = 7 then sp1 else s.reg r), x := s.x.set 7 sp1, pc := s.pc + 2 }

/-- spec/41_stack_subroutine.md R142: POP into a register other than R7, and POP R7, which increments the value
it has just loaded. -/
def Obligations.PopResult : Prop :=
  ∀ (s : State) (r : Fin 8), s.halted = false →
    (r ≠ 7 → s.sp.toNat ≠ 255 →
      ∃ sp1 : Byte, sp1.toNat = s.sp.toNat + 1 ∧
        exec (.pop (regByte r)) s = .next { s with
          x := (s.x.set r (s.mem.read s.sp.toNat)).set 7 sp1, pc := s.pc + 2 }) ∧
    (r = 7 → (s.mem.read s.sp.toNat).toNat ≠ 255 →
      ∃ sp1 : Byte, sp1.toNat = (s.mem.read s.sp.toNat).toNat + 1 ∧
        exec (.pop (regByte r)) s = .next { s with x := s.x.set 7 sp1, pc := s.pc + 2 })

/-- spec/41_stack_subroutine.md R143: CALL, every register, R7 jumping to the decremented SP. -/
def Obligations.CallResult : Prop :=
  ∀ (s : State) (r : Fin 8), s.halted = false → s.sp.toNat ≠ 0 → s.pc.toNat + 2 ≤ 255 →
    ∃ (sp1 ret : Byte) (p : Pc), sp1.toNat + 1 = s.sp.toNat ∧ ret.toNat = s.pc.toNat + 2 ∧
      p.toNat = (if r = 7 then sp1 else s.reg r).toNat ∧
      exec (.call (regByte r)) s = .next { s with
        mem := s.mem.write sp1.toNat ret, x := s.x.set 7 sp1, pc := p }

/-- spec/41_stack_subroutine.md R144: RET. -/
def Obligations.RetResult : Prop :=
  ∀ s : State, s.halted = false → s.sp.toNat ≠ 255 →
    ∃ (sp1 : Byte) (p : Pc), sp1.toNat = s.sp.toNat + 1 ∧ p.toNat = (s.mem.read s.sp.toNat).toNat ∧
      exec .ret s = .next { s with x := s.x.set 7 sp1, pc := p }

/-- spec/41_stack_subroutine.md R140 to R144: where the implicit SP updates and CALL's return address fault, and
that CALL checks SP first. The faults are decisions D13 and D14 (log entry 13). -/
def Obligations.StackFaults : Prop :=
  ∀ (s : State) (r : Fin 8),
    (s.sp.toNat = 0 →
      exec (.push (regByte r)) s = .next { s with fault := some (.memoryBounds (-1)), run := .faulted } ∧
      exec (.call (regByte r)) s = .next { s with fault := some (.memoryBounds (-1)), run := .faulted }) ∧
    (s.sp.toNat ≠ 0 → 255 < s.pc.toNat + 2 →
      exec (.call (regByte r)) s =
        .next { s with fault := some (.memoryBounds (s.pc.toNat + 2)), run := .faulted }) ∧
    (s.sp.toNat = 255 →
      exec .ret s = .next { s with fault := some (.memoryBounds 256), run := .faulted } ∧
      (r ≠ 7 → exec (.pop (regByte r)) s = .next { s with fault := some (.memoryBounds 256), run := .faulted })) ∧
    (r = 7 → (s.mem.read s.sp.toNat).toNat = 255 →
      exec (.pop (regByte r)) s = .next { s with fault := some (.memoryBounds 256), run := .faulted })

/-- spec/41_stack_subroutine.md R146: PUSH then POP of one register; CALL then a later RET; last in, first
out. -/
def Obligations.StackRoundTrips : Prop :=
  (∀ (s : State) (r : Fin 8), Memory.wf s.mem = true → s.sp.toNat ≠ 0 →
    ∃ t u, exec (.push (regByte r)) s = .next t ∧ exec (.pop (regByte r)) t = .next u ∧
      u.reg r = s.reg r ∧ u.sp = s.sp ∧
      u.mem.read (s.sp.toNat - 1) = if r = 7 then s.sp - 1#8 else s.reg r) ∧
  (∀ (s : State) (r : Fin 8), Memory.wf s.mem = true → s.sp.toNat ≠ 0 → s.pc.toNat + 2 ≤ 255 →
    ∃ t, exec (.call (regByte r)) s = .next t ∧
      ∀ u : State, u.sp = t.sp → u.mem.read t.sp.toNat = t.mem.read t.sp.toNat →
        ∃ w, exec .ret u = .next w ∧ w.pc.toNat = s.pc.toNat + 2 ∧ w.sp = s.sp) ∧
  (∀ (s : State) (a b c d : Fin 8), Memory.wf s.mem = true → 2 ≤ s.sp.toNat →
    a ≠ 7 → b ≠ 7 → c ≠ 7 → d ≠ 7 → c ≠ d →
    ∃ t u v w, exec (.push (regByte a)) s = .next t ∧ exec (.push (regByte b)) t = .next u ∧
      exec (.pop (regByte c)) u = .next v ∧ exec (.pop (regByte d)) v = .next w ∧
      w.reg c = s.reg b ∧ w.reg d = s.reg a ∧ w.sp = s.sp)

/-- spec/20_memory.md R63: a byte pushed onto the next instruction's address is what the next cycle fetches. -/
def Obligations.PushedByteIsFetchedNext : Prop :=
  ∀ (s t u : State) (r : Fin 8), Memory.wf s.mem = true → s.halted = false → s.run = .running →
    s.sp.toNat ≠ 0 → (s.pc + 2).toNat + 1 = s.sp.toNat →
    exec (.push (regByte r)) s = .next t → step t = .next u →
    u.ir = if r = 7 then s.sp - 1#8 else s.reg r

/-! ## Faults -/

/-- spec/60_exceptions.md R226, R227: an operand byte above 7 that names a register takes RegisterBounds of that
byte before anything else, the first operand first; JEQ and JNE check it taken or not. The separate cause and the
order are decision D15 (log entry 17). -/
def Obligations.RegisterBoundsTaken : Prop :=
  (∀ mk ∈ [Instr.push, .pop, .prn, .call, .jmp, .jeq, .jne, .not], ∀ (s : State) (r : Byte), 7 < r.toNat →
    exec (mk r) s = .next { s with fault := some (.registerBounds r), run := .faulted }) ∧
  (∀ mk ∈ [Instr.add, .sub, .mul, .div, .mod, .cmp, .and, .or, .xor, .shl, .shr], ∀ (s : State) (a b : Byte),
    (7 < a.toNat → exec (mk a b) s = .next { s with fault := some (.registerBounds a), run := .faulted }) ∧
    (a.toNat ≤ 7 → 7 < b.toNat →
      exec (mk a b) s = .next { s with fault := some (.registerBounds b), run := .faulted })) ∧
  (∀ (s : State) (r v : Byte), 7 < r.toNat →
    exec (.ldi r v) s = .next { s with fault := some (.registerBounds r), run := .faulted })

/-- spec/60_exceptions.md R222: no state makes a step record UnsupportedALUOperation; its number is 2. -/
def Obligations.UnsupportedAluNeverRaised : Prop :=
  (∀ s t : State, s.fault ≠ some .unsupportedALUOperation → step s = .next t →
    t.fault ≠ some .unsupportedALUOperation) ∧
  CoreFault.unsupportedALUOperation.cause = 2

/-- spec/60_exceptions.md R229: a step that faults changes nothing but ir, run and the record. Precision is
decision D11 (log entry 16). -/
def Obligations.FaultsArePrecise : Prop :=
  ∀ s t : State, s.run = .running → step s = .next t → t.run = .faulted →
    ∃ f, t = { s with ir := t.ir, fault := some f, run := .faulted } ∧
      (t.ir = s.ir ∨ t.ir = s.mem.read s.pc.toNat)

/-- spec/60_exceptions.md R221, R223 to R227: a recorded fault names the place that raised it and the condition it
was raised under, read from the state the step started in; `op` is the byte at pc, `opa` and `opb` the two bytes after
it. MemoryBounds has exactly the places of R225's table, with the instruction that has each; RegisterBounds names only
an operand byte that the instruction at pc has as a register operand (R226). The opcode byte values are PRESUMED (log
entry 1). That operand bytes an instruction does not have never fault (log entry 7, decision D8), that pc does not
wrap (log entry 8, D7), the SP and return-address faults (log entry 13, D13, D14), RegisterBounds and the order of the
checks (log entry 17, D12, D15) and the contents of the record (log entry 19, D10) are the choices named there. -/
def Obligations.FaultsHaveTheirReason : Prop :=
  ∀ (s t : State) (op opa opb : Byte), op = s.mem.read s.pc.toNat → opa = s.mem.read (s.pc.toNat + 1) →
    opb = s.mem.read (s.pc.toNat + 2) → s.run = .running → step s = .next t → t.run = .faulted →
    (∀ w, t.fault = some (.unknownOpcode w) → s.pc.toNat ≤ 255 ∧ w = op ∧ isOpcode op = false) ∧
    (∀ p, t.fault = some (.divideByZero p) → p = s.pc ∧ s.pc.toNat ≤ 253 ∧ op = 0xA3#8 ∧
      ∃ a b : Fin 8, opa = regByte a ∧ opb = regByte b ∧ (s.reg b).toNat = 0) ∧
    (∀ p, t.fault = some (.moduloByZero p) → p = s.pc ∧ s.pc.toNat ≤ 253 ∧ op = 0xA4#8 ∧
      ∃ a b : Fin 8, opa = regByte a ∧ opb = regByte b ∧ (s.reg b).toNat = 0) ∧
    (∀ k, t.fault = some (.registerBounds k) → 8 ≤ k.toNat ∧
      ((k = opa ∧ s.pc.toNat ≤ 254 ∧ op ∈ [0x45#8, 0x46#8, 0x47#8, 0x50#8, 0x54#8, 0x55#8, 0x56#8, 0x69#8]) ∨
       (k = opa ∧ s.pc.toNat ≤ 253 ∧ op ∈ [0x82#8, 0xA0#8, 0xA1#8, 0xA2#8, 0xA3#8, 0xA4#8, 0xA7#8, 0xA8#8, 0xAA#8,
         0xAB#8, 0xAC#8, 0xAD#8]) ∨
       (k = opb ∧ opa.toNat ≤ 7 ∧ s.pc.toNat ≤ 253 ∧ op ∈ [0xA0#8, 0xA1#8, 0xA2#8, 0xA3#8, 0xA4#8, 0xA7#8, 0xA8#8,
         0xAA#8, 0xAB#8, 0xAC#8, 0xAD#8]))) ∧
    (∀ m, t.fault = some (.memoryBounds m) →
      (m = s.pc.toNat ∧ 255 < s.pc.toNat) ∨
      (m = 256 ∧ s.pc.toNat ≤ 255 ∧ ∃ i : Instr, op = i.opcode ∧ 256 < s.pc.toNat + i.length) ∨
      (m = -1 ∧ s.pc.toNat ≤ 254 ∧ (op = 0x45#8 ∨ op = 0x50#8) ∧ opa.toNat ≤ 7 ∧ s.sp.toNat = 0) ∨
      (m = 256 ∧ s.pc.toNat = 254 ∧ op = 0x50#8 ∧ opa.toNat ≤ 7 ∧ s.sp.toNat ≠ 0) ∨
      (m = 256 ∧ s.pc.toNat ≤ 255 ∧ op = 0x11#8 ∧ s.sp.toNat = 255) ∨
      (m = 256 ∧ s.pc.toNat ≤ 254 ∧ op = 0x46#8 ∧ opa.toNat < 7 ∧ s.sp.toNat = 255) ∨
      (m = 256 ∧ s.pc.toNat ≤ 254 ∧ op = 0x46#8 ∧ opa.toNat = 7 ∧ (s.mem.read s.sp.toNat).toNat = 255))

/-! ## Invariants and reset -/

/-- The invariant of the machine: canonical memory, pc in 0..258 (spec/10_state.md R27), reachable flag values
(R29), run against halted (R32) and the record (R33), record ranges (spec/60_exceptions.md R220, R225). -/
def Obligations.StepKeepsInv : Prop :=
  ∀ (c : Config) (s t : State), Inv c s → step s = .next t → Inv c t

/-- The invariant holds after reset, whatever the open parameters (log entries 2 and 3). -/
def Obligations.ResetMeetsInv : Prop :=
  ∀ c : Config, Inv c (State.resetWith c)

/-- The invariant holds in every state of every run, whatever the image. -/
def Obligations.ReachableStatesMeetInv : Prop :=
  ∀ (c : Config) (s : State), Reachable c s → Inv c s

/-- spec/10_state.md R37: the reset values, for every choice of the open parameters. R0..R6, the flags and ir are
the model's choice (log entries 2, 3, 4); the others are the source's. -/
def Obligations.ResetValues : Prop :=
  (∀ c : Config, (State.resetWith c).sp = 0xF4#8 ∧ (State.resetWith c).pc = 0 ∧
    (∀ a, (State.resetWith c).mem.read a = 0) ∧ (State.resetWith c).halted = false ∧
    (State.resetWith c).run = .running ∧ (State.resetWith c).fault = none ∧ (State.resetWith c).out = [] ∧
    (∀ i : Fin 8, i ≠ 7 → (State.resetWith c).reg i = c.gprReset) ∧ (State.resetWith c).fl = c.flReset ∧
    (State.resetWith c).ir = 0) ∧
  (∀ i : Fin 8, i ≠ 7 → State.reset.reg i = 0) ∧ State.reset.fl = 0

/-- spec/20_memory.md R65, R66: image byte `i` goes to cell `i`, the rest of memory is 0, nothing but memory is
touched; an image over 256 bytes is refused. -/
def Obligations.BootLoadsTheImage : Prop :=
  ∀ (c : Config) (image : List Byte),
    (image.length ≤ 256 → ∃ t, boot c image = .next t ∧ t = { State.resetWith c with mem := t.mem } ∧
      (∀ (i : Nat) (b : Byte), image[i]? = some b → t.mem.read i = b) ∧
      (∀ a, image.length ≤ a → t.mem.read a = 0)) ∧
    (256 < image.length → boot c image = .refused (.imageTooLong image.length))

/-- spec/20_memory.md R67, spec/70_reset_and_hazards.md R260, spec/60_exceptions.md R235: a terminal state is left
by a reset that restores everything, a RUNNING core cannot be reset (DEDUCED, log entry 11), and what the environment
observes at the end of a run is the run state and, after a fault, cause number and info. -/
def Obligations.HostResetAndEndOfRun : Prop :=
  (∀ (c : Config) (s : State), s.run = .halted ∨ s.run = .faulted → hostReset c s = .next (State.resetWith c)) ∧
  (∀ (c : Config) (s : State), s.run = .running → hostReset c s = .refused .resetWhileRunning) ∧
  (∀ s : State, s.run = .running → endOfRun s = none) ∧
  (∀ s : State, s.run = .halted → endOfRun s = some (.halted, none)) ∧
  (∀ (s : State) (f : CoreFault), s.run = .faulted → s.fault = some f →
    endOfRun s = some (.faulted, some (f.cause, f.info)))

/-! ## Whole-machine rules and frames -/

/-- spec/10_state.md R30: only CMP writes the flags, and it discards their old value; JEQ and JNE read EQUAL and
nothing else; nothing reads LESS_THAN or GREATER_THAN. -/
def Obligations.FlagWritersAndReaders : Prop :=
  (∀ (i : Instr) (s t : State), (∀ a b, i ≠ .cmp a b) → exec i s = .next t → t.fl = s.fl) ∧
  (∀ (s : State) (a b : Fin 8) (f : Flags),
    exec (.cmp (regByte a) (regByte b)) { s with fl := f } = exec (.cmp (regByte a) (regByte b)) s) ∧
  (∀ (i : Instr) (s t : State) (f : Flags), (∀ a b, i ≠ .cmp a b) → f.getLsbD 0 = s.fl.getLsbD 0 →
    exec i s = .next t → exec i { s with fl := f } = .next { t with fl := f }) ∧
  (∀ (i : Instr) (s t : State) (f : Flags), (∀ a b, i ≠ .cmp a b) → (∀ r, i ≠ .jeq r) → (∀ r, i ≠ .jne r) →
    exec i s = .next t → exec i { s with fl := f } = .next { t with fl := f })

/-- spec/10_state.md R31: halted starts false, only HLT writes it and only to true, and once true the loop
terminates. -/
def Obligations.HaltedOnlyByHlt : Prop :=
  (∀ c : Config, (State.resetWith c).halted = false) ∧
  (∀ (i : Instr) (s t : State), i ≠ .hlt → exec i s = .next t → t.halted = s.halted) ∧
  (∀ s t : State, exec .hlt s = .next t → t.halted = true) ∧
  (∀ s t : State, s.run = .running → s.halted = false → step s = .next t → t.halted = true →
    t.run = .halted ∧ ∀ u, step t ≠ .next u)

/-- spec/10_state.md R21, spec/20_memory.md R53: only PUSH and CALL write memory, and only the cell below SP. -/
def Obligations.OnlyPushAndCallWriteMemory : Prop :=
  (∀ (i : Instr) (s t : State), (∀ r, i ≠ .push r) → (∀ r, i ≠ .call r) → exec i s = .next t →
    ∀ addr, t.mem.read addr = s.mem.read addr) ∧
  (∀ (r : Byte) (s t : State), exec (.push r) s = .next t ∨ exec (.call r) s = .next t →
    ∀ addr, addr ≠ (s.sp - 1#8).toNat → t.mem.read addr = s.mem.read addr)

/-- spec/10_state.md R34: only PRN changes the output trace, by one value at its end; no instruction reads it. -/
def Obligations.OutputAppendOnly : Prop :=
  (∀ s t : State, step s = .next t → ∃ suffix, t.out = s.out ++ suffix ∧ suffix.length ≤ 1) ∧
  (∀ (i : Instr) (s t : State), (∀ r, i ≠ .prn r) → exec i s = .next t → t.out = s.out) ∧
  (∀ (s t : State) (o : List Byte), step s = .next t →
    ∃ suffix, t.out = s.out ++ suffix ∧ step { s with out := o } = .next { t with out := o ++ suffix })

/-- spec/10_state.md R28, R37: what ir holds at the start of a cycle that fetches is never observed
(decision D4, log entry 4). -/
def Obligations.IrUnobservable : Prop :=
  ∀ (s : State) (w : Byte), s.run = .running → s.pc.toNat ≤ 255 → step { s with ir := w } = step s

/-- Frame of the ALU instructions and LDI (spec/10_state.md R25, spec/40_alu.md R111): only the first operand's
register and pc change, or a fault is taken. -/
def Obligations.AluAndLdiFrame : Prop :=
  ∀ (i : Instr) (a : Byte) (s t : State),
    (i = .not a ∨ (∃ v, i = .ldi a v) ∨ ∃ b, ∃ mk ∈ [Instr.add, .sub, .mul, .div, .mod, .and, .or, .xor, .shl, .shr],
      i = mk a b) →
    s.halted = false → exec i s = .next t →
    (∀ k : Fin 8, k.val ≠ a.toNat → t.reg k = s.reg k) ∧ t.fl = s.fl ∧ t.ir = s.ir ∧ t.halted = s.halted ∧
    t.out = s.out ∧ (∀ addr, t.mem.read addr = s.mem.read addr) ∧
    ((t.run = s.run ∧ t.fault = s.fault) ∨ (t.x = s.x ∧ t.pc = s.pc ∧ t.run = .faulted ∧ t.fault ≠ none))

/-- Frame of CMP, JMP, JEQ, JNE, PRN and HLT (spec/10_state.md R25): no register and no memory changes; flags
only by CMP, output only by PRN, halted only by HLT. -/
def Obligations.RegisterFreeFrame : Prop :=
  ∀ (i : Instr) (s t : State),
    (i = .hlt ∨ (∃ a b, i = .cmp a b) ∨ ∃ r, i = .jmp r ∨ i = .jeq r ∨ i = .jne r ∨ i = .prn r) →
    s.halted = false → exec i s = .next t →
    (∀ k : Fin 8, t.reg k = s.reg k) ∧ t.ir = s.ir ∧ (∀ addr, t.mem.read addr = s.mem.read addr) ∧
    ((∀ a b, i ≠ .cmp a b) → t.fl = s.fl) ∧ ((∀ r, i ≠ .prn r) → t.out = s.out) ∧
    (i ≠ .hlt → t.halted = s.halted ∧
      ((t.run = s.run ∧ t.fault = s.fault) ∨ (t.pc = s.pc ∧ t.run = .faulted ∧ t.fault ≠ none))) ∧
    (i = .hlt → t.run = .halted ∧ t.fault = s.fault)

/-- Frame of PUSH and CALL (spec/10_state.md R25, spec/20_memory.md R53): of the registers only SP changes, and
of memory only the cell at the decremented SP. -/
def Obligations.PushAndCallFrame : Prop :=
  ∀ (i : Instr) (s t : State), (∃ r, i = .push r ∨ i = .call r) → s.halted = false → exec i s = .next t →
    (∀ k : Fin 8, k ≠ 7 → t.reg k = s.reg k) ∧ t.fl = s.fl ∧ t.ir = s.ir ∧ t.halted = s.halted ∧ t.out = s.out ∧
    (∀ addr, addr ≠ (s.sp - 1#8).toNat → t.mem.read addr = s.mem.read addr) ∧
    ((t.run = s.run ∧ t.fault = s.fault) ∨
      (t.x = s.x ∧ t.mem = s.mem ∧ t.pc = s.pc ∧ t.run = .faulted ∧ t.fault ≠ none))

/-- Frame of POP and RET (spec/10_state.md R25, R21): of the registers only SP and POP's destination change, and
no memory. -/
def Obligations.PopAndRetFrame : Prop :=
  ∀ (i : Instr) (s t : State), (i = .ret ∨ ∃ r, i = .pop r) → s.halted = false → exec i s = .next t →
    (∀ k : Fin 8, k ≠ 7 → (∀ r, i = .pop r → k.val ≠ r.toNat) → t.reg k = s.reg k) ∧
    t.fl = s.fl ∧ t.ir = s.ir ∧ t.halted = s.halted ∧ t.out = s.out ∧
    (∀ addr, t.mem.read addr = s.mem.read addr) ∧
    ((t.run = s.run ∧ t.fault = s.fault) ∨ (t.x = s.x ∧ t.pc = s.pc ∧ t.run = .faulted ∧ t.fault ≠ none))
end

