-- ==== Sys2Proof/Laws/Decode.lean ====
section
/-! SUPPORT. Laws of the opcode map: the length of each instruction, and what the dispatch lookup finds. -/

namespace Sys2Proof

@[simp] theorem Instr.length_hlt : Instr.hlt.length = 1 :=
  (by decide : lenOfOpcode 0x01#8 = 1)
@[simp] theorem Instr.length_ret : Instr.ret.length = 1 :=
  (by decide : lenOfOpcode 0x11#8 = 1)
@[simp] theorem Instr.length_push (r : Byte) : (Instr.push r).length = 2 :=
  (by decide : lenOfOpcode 0x45#8 = 2)
@[simp] theorem Instr.length_pop (r : Byte) : (Instr.pop r).length = 2 :=
  (by decide : lenOfOpcode 0x46#8 = 2)
@[simp] theorem Instr.length_prn (r : Byte) : (Instr.prn r).length = 2 :=
  (by decide : lenOfOpcode 0x47#8 = 2)
@[simp] theorem Instr.length_call (r : Byte) : (Instr.call r).length = 2 :=
  (by decide : lenOfOpcode 0x50#8 = 2)
@[simp] theorem Instr.length_jmp (r : Byte) : (Instr.jmp r).length = 2 :=
  (by decide : lenOfOpcode 0x54#8 = 2)
@[simp] theorem Instr.length_jeq (r : Byte) : (Instr.jeq r).length = 2 :=
  (by decide : lenOfOpcode 0x55#8 = 2)
@[simp] theorem Instr.length_jne (r : Byte) : (Instr.jne r).length = 2 :=
  (by decide : lenOfOpcode 0x56#8 = 2)
@[simp] theorem Instr.length_not (a : Byte) : (Instr.not a).length = 2 :=
  (by decide : lenOfOpcode 0x69#8 = 2)
@[simp] theorem Instr.length_ldi (r v : Byte) : (Instr.ldi r v).length = 3 :=
  (by decide : lenOfOpcode 0x82#8 = 3)
@[simp] theorem Instr.length_add (a b : Byte) : (Instr.add a b).length = 3 :=
  (by decide : lenOfOpcode 0xA0#8 = 3)
@[simp] theorem Instr.length_sub (a b : Byte) : (Instr.sub a b).length = 3 :=
  (by decide : lenOfOpcode 0xA1#8 = 3)
@[simp] theorem Instr.length_mul (a b : Byte) : (Instr.mul a b).length = 3 :=
  (by decide : lenOfOpcode 0xA2#8 = 3)
@[simp] theorem Instr.length_div (a b : Byte) : (Instr.div a b).length = 3 :=
  (by decide : lenOfOpcode 0xA3#8 = 3)
@[simp] theorem Instr.length_mod (a b : Byte) : (Instr.mod a b).length = 3 :=
  (by decide : lenOfOpcode 0xA4#8 = 3)
@[simp] theorem Instr.length_cmp (a b : Byte) : (Instr.cmp a b).length = 3 :=
  (by decide : lenOfOpcode 0xA7#8 = 3)
@[simp] theorem Instr.length_and (a b : Byte) : (Instr.and a b).length = 3 :=
  (by decide : lenOfOpcode 0xA8#8 = 3)
@[simp] theorem Instr.length_or (a b : Byte) : (Instr.or a b).length = 3 :=
  (by decide : lenOfOpcode 0xAA#8 = 3)
@[simp] theorem Instr.length_xor (a b : Byte) : (Instr.xor a b).length = 3 :=
  (by decide : lenOfOpcode 0xAB#8 = 3)
@[simp] theorem Instr.length_shl (a b : Byte) : (Instr.shl a b).length = 3 :=
  (by decide : lenOfOpcode 0xAC#8 = 3)
@[simp] theorem Instr.length_shr (a b : Byte) : (Instr.shr a b).length = 3 :=
  (by decide : lenOfOpcode 0xAD#8 = 3)

/-- Every length is 1, 2 or 3 (spec/30_encoding.md R80). -/
theorem Instr.length_le (i : Instr) : 1 ≤ i.length ∧ i.length ≤ 3 := by
  cases i <;> simp

/-- What a lookup finds is a row of the table. -/
theorem mem_of_findRow {l : List (Byte × Shape)} {b : Byte} {sh : Shape} (h : findRow l b = some sh) :
    (b, sh) ∈ l := by
  induction l with
  | nil => cases h
  | cons p l ih =>
    obtain ⟨k, s⟩ := p
    unfold findRow at h
    split at h
    · rename_i hk; cases h; subst hk; exact List.mem_cons_self
    · exact List.mem_cons_of_mem _ (ih h)

/-- What the dispatch lookup finds is a row of the opcode map. -/
theorem mem_of_shapeOf {b : Byte} {sh : Shape} (h : shapeOf b = some sh) : (b, sh) ∈ opcodeTable :=
  mem_of_findRow h

/-- The decoder on a first byte the lookup does not find, and on one it does. -/
theorem decode_cons_of_none {b : Byte} {rest : List Byte} (h : shapeOf b = none) :
    decode (b :: rest) = .error (.unknownOpcode b) := by
  simp only [decode, h]

theorem decode_cons_of_some {b : Byte} {rest : List Byte} {sh : Shape} (h : shapeOf b = some sh) :
    decode (b :: rest) = takeOperands sh rest := by
  simp only [decode, h]

end Sys2Proof
end

