-- ==== Sys2Proof/Laws/Memory.lean ====
section
/-! SUPPORT. Laws of memory as data: read after write, and every write keeps the canonical form. -/

namespace Sys2Proof.Machine

theorem Memory.read_cons (a b : Nat) (v : Byte) (m : Memory) (h : m.read a = Memory.unlisted) :
    (Memory.cons a v m).read b = if b = a then v else m.read b := by
  unfold Memory.cons
  split
  · rename_i hv; split
    · rename_i hb; rw [hb, hv, h]
    · rfl
  · simp [Memory.read, eq_comm]

/-- Below its first address a canonical memory lists nothing. -/
theorem Memory.read_below {lo a : Nat} {m : Memory} (h : Memory.wfFrom lo m = true) (ha : a < lo) :
    m.read a = Memory.unlisted := by
  induction m generalizing lo with
  | nil => rfl
  | cons p m ih =>
    obtain ⟨k, v⟩ := p
    simp only [Memory.wfFrom, Bool.and_eq_true, decide_eq_true_eq] at h
    rw [Memory.read, if_neg (by omega)]
    exact ih h.2 (by omega)

theorem Memory.wfFrom_mono {lo lo' : Nat} {m : Memory} (h : Memory.wfFrom lo m = true) (hl : lo' ≤ lo) :
    Memory.wfFrom lo' m = true := by
  cases m with
  | nil => rfl
  | cons p m =>
    simp only [Memory.wfFrom, Bool.and_eq_true, decide_eq_true_eq] at h ⊢
    exact ⟨⟨⟨by omega, h.1.1.2⟩, h.1.2⟩, h.2⟩

theorem Memory.wfFrom_cons {lo a : Nat} {v : Byte} {m : Memory} (h : Memory.wfFrom (a + 1) m = true)
    (hlo : lo ≤ a) (ha : a < 256) : Memory.wfFrom lo (Memory.cons a v m) = true := by
  unfold Memory.cons
  split
  · exact Memory.wfFrom_mono h (by omega)
  · rename_i hv
    simp [Memory.wfFrom, h, hlo, hv, Config.memSize, ha]

theorem Memory.wfFrom_write {lo a : Nat} {v : Byte} {m : Memory} (h : Memory.wfFrom lo m = true)
    (hlo : lo ≤ a) (ha : a < 256) : Memory.wfFrom lo (m.write a v) = true := by
  induction m generalizing lo with
  | nil => exact Memory.wfFrom_cons rfl hlo ha
  | cons p m ih =>
    obtain ⟨k, w⟩ := p
    have h0 := h
    simp only [Memory.wfFrom, Bool.and_eq_true, decide_eq_true_eq] at h
    obtain ⟨⟨⟨h1, h2⟩, h3⟩, h4⟩ := h
    unfold Memory.write
    split
    · refine Memory.wfFrom_cons ?_ hlo ha
      simp [Memory.wfFrom, h2, h3, h4]; omega
    · split
      · rename_i hk; subst hk; exact Memory.wfFrom_cons h4 hlo ha
      · simp [Memory.wfFrom, h1, h2, h3, ih h4 (by omega)]

/-- A write inside memory keeps the canonical form. -/
theorem Memory.wf_write {m : Memory} (h : m.wf = true) {a : Nat} (ha : a < 256) (v : Byte) :
    (m.write a v).wf = true := Memory.wfFrom_write h (Nat.zero_le a) ha

theorem Memory.read_write_from {lo : Nat} {m : Memory} (h : Memory.wfFrom lo m = true) (a b : Nat) (v : Byte) :
    (m.write a v).read b = if b = a then v else m.read b := by
  induction m generalizing lo with
  | nil => exact Memory.read_cons a b v [] rfl
  | cons p m ih =>
    obtain ⟨k, w⟩ := p
    have h0 := h
    simp only [Memory.wfFrom, Bool.and_eq_true, decide_eq_true_eq] at h
    obtain ⟨⟨⟨h1, h2⟩, h3⟩, h4⟩ := h
    unfold Memory.write
    split
    · rename_i hk
      refine Memory.read_cons a b v _ (Memory.read_below (lo := k) ?_ hk)
      simp [Memory.wfFrom, h2, h3, h4]
    · split
      · rename_i hk; subst hk
        rw [Memory.read_cons a b v m (Memory.read_below h4 (by omega))]
        split
        · rfl
        · rename_i hb; rw [Memory.read, if_neg (Ne.symm hb)]
      · rename_i h5 h6
        simp only [Memory.read]
        split
        · rename_i hb; rw [if_neg (by omega)]
        · exact ih h4

/-- Read after write, in a canonical memory. -/
theorem Memory.read_write {m : Memory} (h : m.wf = true) (a b : Nat) (v : Byte) :
    (m.write a v).read b = if b = a then v else m.read b := Memory.read_write_from h a b v

/-- A write leaves every other address alone, in any memory. -/
theorem Memory.read_write_other (m : Memory) {a b : Nat} (v : Byte) (hb : b ≠ a) :
    (m.write a v).read b = m.read b := by
  have hc : ∀ m : Memory, (Memory.cons a v m).read b = m.read b := by
    intro m; unfold Memory.cons; split
    · rfl
    · simp [Memory.read, Ne.symm hb]
  induction m with
  | nil => exact hc []
  | cons p m ih =>
    obtain ⟨k, w⟩ := p
    unfold Memory.write
    split
    · exact hc _
    · split
      · rename_i hk; subst hk; rw [hc, Memory.read, if_neg (Ne.symm hb)]
      · simp [Memory.read, ih]

/-- Bytes placed anywhere keep the canonical form. -/
theorem Memory.wf_place {m : Memory} (h : m.wf = true) (bs : List Byte) (a : Nat) :
    (m.place bs a).wf = true := by
  induction bs generalizing a m with
  | nil => exact h
  | cons b bs ih =>
    unfold Memory.place
    refine ih ?_ _
    split
    · rename_i ha; exact Memory.wf_write h ha b
    · exact h

/-- Reset memory is canonical. -/
theorem Memory.wf_reset (c : Config) : (State.resetWith c).mem.wf = true := rfl

end Sys2Proof.Machine
end

