-- ==== Sys2Proof/Laws/State.lean ====
section
/-! SUPPORT. What each update of a state does to each field. -/

namespace Sys2Proof.Machine

@[simp] theorem State.setReg_mem (s : State) (i : Fin 8) (v : Byte) : (s.setReg i v).mem = s.mem := rfl
@[simp] theorem State.setReg_x (s : State) (i : Fin 8) (v : Byte) : (s.setReg i v).x = s.x.set i v := rfl
@[simp] theorem State.setReg_pc (s : State) (i : Fin 8) (v : Byte) : (s.setReg i v).pc = s.pc := rfl
@[simp] theorem State.setReg_ir (s : State) (i : Fin 8) (v : Byte) : (s.setReg i v).ir = s.ir := rfl
@[simp] theorem State.setReg_fl (s : State) (i : Fin 8) (v : Byte) : (s.setReg i v).fl = s.fl := rfl
@[simp] theorem State.setReg_halted (s : State) (i : Fin 8) (v : Byte) : (s.setReg i v).halted = s.halted := rfl
@[simp] theorem State.setReg_run (s : State) (i : Fin 8) (v : Byte) : (s.setReg i v).run = s.run := rfl
@[simp] theorem State.setReg_fault (s : State) (i : Fin 8) (v : Byte) : (s.setReg i v).fault = s.fault := rfl
@[simp] theorem State.setReg_out (s : State) (i : Fin 8) (v : Byte) : (s.setReg i v).out = s.out := rfl

@[simp] theorem State.setPc_mem (s : State) (t : Pc) : (s.setPc t).mem = s.mem := rfl
@[simp] theorem State.setPc_x (s : State) (t : Pc) : (s.setPc t).x = s.x := rfl
@[simp] theorem State.setPc_pc (s : State) (t : Pc) : (s.setPc t).pc = t := rfl
@[simp] theorem State.setPc_ir (s : State) (t : Pc) : (s.setPc t).ir = s.ir := rfl
@[simp] theorem State.setPc_fl (s : State) (t : Pc) : (s.setPc t).fl = s.fl := rfl
@[simp] theorem State.setPc_halted (s : State) (t : Pc) : (s.setPc t).halted = s.halted := rfl
@[simp] theorem State.setPc_run (s : State) (t : Pc) : (s.setPc t).run = s.run := rfl
@[simp] theorem State.setPc_fault (s : State) (t : Pc) : (s.setPc t).fault = s.fault := rfl
@[simp] theorem State.setPc_out (s : State) (t : Pc) : (s.setPc t).out = s.out := rfl

@[simp] theorem State.setPcByte_mem (s : State) (t : Byte) : (s.setPcByte t).mem = s.mem := rfl
@[simp] theorem State.setPcByte_x (s : State) (t : Byte) : (s.setPcByte t).x = s.x := rfl
@[simp] theorem State.setPcByte_pc (s : State) (t : Byte) : (s.setPcByte t).pc = t.setWidth 9 := rfl
@[simp] theorem State.setPcByte_ir (s : State) (t : Byte) : (s.setPcByte t).ir = s.ir := rfl
@[simp] theorem State.setPcByte_fl (s : State) (t : Byte) : (s.setPcByte t).fl = s.fl := rfl
@[simp] theorem State.setPcByte_halted (s : State) (t : Byte) : (s.setPcByte t).halted = s.halted := rfl
@[simp] theorem State.setPcByte_run (s : State) (t : Byte) : (s.setPcByte t).run = s.run := rfl
@[simp] theorem State.setPcByte_fault (s : State) (t : Byte) : (s.setPcByte t).fault = s.fault := rfl
@[simp] theorem State.setPcByte_out (s : State) (t : Byte) : (s.setPcByte t).out = s.out := rfl

@[simp] theorem State.setIr_mem (s : State) (b : Byte) : (s.setIr b).mem = s.mem := rfl
@[simp] theorem State.setIr_x (s : State) (b : Byte) : (s.setIr b).x = s.x := rfl
@[simp] theorem State.setIr_pc (s : State) (b : Byte) : (s.setIr b).pc = s.pc := rfl
@[simp] theorem State.setIr_ir (s : State) (b : Byte) : (s.setIr b).ir = b := rfl
@[simp] theorem State.setIr_fl (s : State) (b : Byte) : (s.setIr b).fl = s.fl := rfl
@[simp] theorem State.setIr_halted (s : State) (b : Byte) : (s.setIr b).halted = s.halted := rfl
@[simp] theorem State.setIr_run (s : State) (b : Byte) : (s.setIr b).run = s.run := rfl
@[simp] theorem State.setIr_fault (s : State) (b : Byte) : (s.setIr b).fault = s.fault := rfl
@[simp] theorem State.setIr_out (s : State) (b : Byte) : (s.setIr b).out = s.out := rfl

@[simp] theorem State.setFl_mem (s : State) (f : Flags) : (s.setFl f).mem = s.mem := rfl
@[simp] theorem State.setFl_x (s : State) (f : Flags) : (s.setFl f).x = s.x := rfl
@[simp] theorem State.setFl_pc (s : State) (f : Flags) : (s.setFl f).pc = s.pc := rfl
@[simp] theorem State.setFl_ir (s : State) (f : Flags) : (s.setFl f).ir = s.ir := rfl
@[simp] theorem State.setFl_fl (s : State) (f : Flags) : (s.setFl f).fl = f := rfl
@[simp] theorem State.setFl_halted (s : State) (f : Flags) : (s.setFl f).halted = s.halted := rfl
@[simp] theorem State.setFl_run (s : State) (f : Flags) : (s.setFl f).run = s.run := rfl
@[simp] theorem State.setFl_fault (s : State) (f : Flags) : (s.setFl f).fault = s.fault := rfl
@[simp] theorem State.setFl_out (s : State) (f : Flags) : (s.setFl f).out = s.out := rfl

@[simp] theorem State.setHalted_mem (s : State) : (s.setHalted).mem = s.mem := rfl
@[simp] theorem State.setHalted_x (s : State) : (s.setHalted).x = s.x := rfl
@[simp] theorem State.setHalted_pc (s : State) : (s.setHalted).pc = s.pc := rfl
@[simp] theorem State.setHalted_ir (s : State) : (s.setHalted).ir = s.ir := rfl
@[simp] theorem State.setHalted_fl (s : State) : (s.setHalted).fl = s.fl := rfl
@[simp] theorem State.setHalted_halted (s : State) : (s.setHalted).halted = true := rfl
@[simp] theorem State.setHalted_run (s : State) : (s.setHalted).run = s.run := rfl
@[simp] theorem State.setHalted_fault (s : State) : (s.setHalted).fault = s.fault := rfl
@[simp] theorem State.setHalted_out (s : State) : (s.setHalted).out = s.out := rfl

@[simp] theorem State.emit_mem (s : State) (v : Byte) : (s.emit v).mem = s.mem := rfl
@[simp] theorem State.emit_x (s : State) (v : Byte) : (s.emit v).x = s.x := rfl
@[simp] theorem State.emit_pc (s : State) (v : Byte) : (s.emit v).pc = s.pc := rfl
@[simp] theorem State.emit_ir (s : State) (v : Byte) : (s.emit v).ir = s.ir := rfl
@[simp] theorem State.emit_fl (s : State) (v : Byte) : (s.emit v).fl = s.fl := rfl
@[simp] theorem State.emit_halted (s : State) (v : Byte) : (s.emit v).halted = s.halted := rfl
@[simp] theorem State.emit_run (s : State) (v : Byte) : (s.emit v).run = s.run := rfl
@[simp] theorem State.emit_fault (s : State) (v : Byte) : (s.emit v).fault = s.fault := rfl
@[simp] theorem State.emit_out (s : State) (v : Byte) : (s.emit v).out = s.out ++ [v] := rfl

@[simp] theorem State.setCell_mem (s : State) (a : Nat) (v : Byte) : (s.setCell a v).mem = s.mem.write a v := rfl
@[simp] theorem State.setCell_x (s : State) (a : Nat) (v : Byte) : (s.setCell a v).x = s.x := rfl
@[simp] theorem State.setCell_pc (s : State) (a : Nat) (v : Byte) : (s.setCell a v).pc = s.pc := rfl
@[simp] theorem State.setCell_ir (s : State) (a : Nat) (v : Byte) : (s.setCell a v).ir = s.ir := rfl
@[simp] theorem State.setCell_fl (s : State) (a : Nat) (v : Byte) : (s.setCell a v).fl = s.fl := rfl
@[simp] theorem State.setCell_halted (s : State) (a : Nat) (v : Byte) : (s.setCell a v).halted = s.halted := rfl
@[simp] theorem State.setCell_run (s : State) (a : Nat) (v : Byte) : (s.setCell a v).run = s.run := rfl
@[simp] theorem State.setCell_fault (s : State) (a : Nat) (v : Byte) : (s.setCell a v).fault = s.fault := rfl
@[simp] theorem State.setCell_out (s : State) (a : Nat) (v : Byte) : (s.setCell a v).out = s.out := rfl

@[simp] theorem State.raise_mem (s : State) (f : CoreFault) : (s.raise f).mem = s.mem := rfl
@[simp] theorem State.raise_x (s : State) (f : CoreFault) : (s.raise f).x = s.x := rfl
@[simp] theorem State.raise_pc (s : State) (f : CoreFault) : (s.raise f).pc = s.pc := rfl
@[simp] theorem State.raise_ir (s : State) (f : CoreFault) : (s.raise f).ir = s.ir := rfl
@[simp] theorem State.raise_fl (s : State) (f : CoreFault) : (s.raise f).fl = s.fl := rfl
@[simp] theorem State.raise_halted (s : State) (f : CoreFault) : (s.raise f).halted = s.halted := rfl
@[simp] theorem State.raise_run (s : State) (f : CoreFault) : (s.raise f).run = .faulted := rfl
@[simp] theorem State.raise_fault (s : State) (f : CoreFault) : (s.raise f).fault = some f := rfl
@[simp] theorem State.raise_out (s : State) (f : CoreFault) : (s.raise f).out = s.out := rfl

@[simp] theorem State.setSp_mem (s : State) (v : Byte) : (s.setSp v).mem = s.mem := rfl
@[simp] theorem State.setSp_x (s : State) (v : Byte) : (s.setSp v).x = s.x.set 7 v := rfl
@[simp] theorem State.setSp_pc (s : State) (v : Byte) : (s.setSp v).pc = s.pc := rfl
@[simp] theorem State.setSp_ir (s : State) (v : Byte) : (s.setSp v).ir = s.ir := rfl
@[simp] theorem State.setSp_fl (s : State) (v : Byte) : (s.setSp v).fl = s.fl := rfl
@[simp] theorem State.setSp_halted (s : State) (v : Byte) : (s.setSp v).halted = s.halted := rfl
@[simp] theorem State.setSp_run (s : State) (v : Byte) : (s.setSp v).run = s.run := rfl
@[simp] theorem State.setSp_fault (s : State) (v : Byte) : (s.setSp v).fault = s.fault := rfl
@[simp] theorem State.setSp_out (s : State) (v : Byte) : (s.setSp v).out = s.out := rfl

/-- A register after a register write. -/
theorem State.reg_setReg (s : State) (i j : Fin 8) (v : Byte) :
    (s.setReg i v).reg j = if j = i then v else s.reg j := by
  by_cases h : j = i
  · subst h; simp [State.reg]
  · have : i.val ≠ j.val := fun e => h (Fin.ext e.symm)
    simp [State.reg, h, Vector.getElem_set_ne, this]

/-- SP after a register write. -/
theorem State.sp_setReg (s : State) (i : Fin 8) (v : Byte) :
    (s.setReg i v).sp = if i = 7 then v else s.sp := by
  simp [State.sp, State.reg_setReg, Config.spIndex, eq_comm]

/-- Registers depend on the field `x` alone. -/
theorem State.reg_congr {s t : State} (h : s.x = t.x) (i : Fin 8) : s.reg i = t.reg i := by
  simp [State.reg, h]

/-- Register `i` and SP of the states that do not write `x`. -/
@[simp] theorem State.reg_setPc (s : State) (t : Pc) (i : Fin 8) : (s.setPc t).reg i = s.reg i := rfl
@[simp] theorem State.reg_setPcByte (s : State) (t : Byte) (i : Fin 8) : (s.setPcByte t).reg i = s.reg i := rfl
@[simp] theorem State.reg_setIr (s : State) (b : Byte) (i : Fin 8) : (s.setIr b).reg i = s.reg i := rfl
@[simp] theorem State.reg_setFl (s : State) (f : Flags) (i : Fin 8) : (s.setFl f).reg i = s.reg i := rfl
@[simp] theorem State.reg_setHalted (s : State) (i : Fin 8) : s.setHalted.reg i = s.reg i := rfl
@[simp] theorem State.reg_emit (s : State) (v : Byte) (i : Fin 8) : (s.emit v).reg i = s.reg i := rfl
@[simp] theorem State.reg_setCell (s : State) (a : Nat) (v : Byte) (i : Fin 8) : (s.setCell a v).reg i = s.reg i := rfl
@[simp] theorem State.reg_raise (s : State) (f : CoreFault) (i : Fin 8) : (s.raise f).reg i = s.reg i := rfl

end Sys2Proof.Machine
end

