-- ==== Sys2Proof/Laws/Ops.lean ====
section
/-! SUPPORT. What each shared operation can do, said once. -/

namespace Sys2Proof.Machine

@[simp] theorem Except.ok_bind' {ε α β : Type} (a : α) (f : α → Except ε β) : (Except.ok a >>= f) = f a := rfl
@[simp] theorem Except.error_bind' {ε α β : Type} (e : ε) (f : α → Except ε β) :
    (Except.error e >>= f) = Except.error e := rfl

/-- A bind that answers `ok` ran its first part to an `ok`. -/
theorem Except.bind_ok_inv {ε α β : Type} {x : Except ε α} {f : α → Except ε β} {b : β}
    (h : (x >>= f) = .ok b) : ∃ a, x = .ok a ∧ f a = .ok b := by
  cases x with
  | error e => cases h
  | ok a => exact ⟨a, rfl, h⟩

/-! ## Operands -/

theorem regByte_toNat (i : Fin 8) : (regByte i).toNat = i.val := by
  simp [regByte]; omega

theorem regIdx_regByte (i : Fin 8) : regIdx (regByte i) = .ok i := by
  have h : (regByte i).toNat < 8 := by rw [regByte_toNat]; exact i.isLt
  rw [regIdx, dif_pos h]
  exact congrArg _ (Fin.ext (regByte_toNat i))

theorem regIdx_high {b : Byte} (h : 7 < b.toNat) : regIdx b = .error (.registerBounds b) := by
  rw [regIdx, dif_neg (by omega)]

/-- `RegIdx` answers an index exactly for the byte that names it. -/
theorem regIdx_ok_iff {b : Byte} {i : Fin 8} : regIdx b = .ok i ↔ b = regByte i := by
  constructor
  · intro h
    unfold regIdx at h
    split at h
    · simp only [Except.ok.injEq] at h
      subst h
      apply BitVec.eq_of_toNat_eq
      rw [regByte_toNat]
    · cases h
  · rintro rfl; exact regIdx_regByte i

/-- `RegIdx` raises RegisterBounds of the byte and nothing else, and only above 7. -/
theorem regIdx_error {b : Byte} {f : CoreFault} (h : regIdx b = .error f) :
    f = .registerBounds b ∧ 8 ≤ b.toNat := by
  unfold regIdx at h
  split at h
  · cases h
  · cases h; exact ⟨rfl, by omega⟩

/-! ## Memory primitives -/

theorem memRead_byte (s : State) (b : Byte) : s.memRead (b.toNat : Int) = .ok (s.mem.read b.toNat) := by
  have := b.isLt
  rw [State.memRead, if_pos (by omega)]; rfl

theorem memWrite_byte (s : State) (b v : Byte) : s.memWrite (b.toNat : Int) v = .ok (s.setCell b.toNat v) := by
  have := b.isLt
  rw [State.memWrite, if_pos (by omega)]; rfl

theorem memRead_inside (s : State) {a : Nat} (h : a ≤ 255) : s.memRead (a : Int) = .ok (s.mem.read a) := by
  rw [State.memRead, if_pos (by omega)]; rfl

theorem memRead_above (s : State) {a : Nat} (h : 255 < a) : s.memRead (a : Int) = .error (.memoryBounds a) := by
  rw [State.memRead, if_neg (by omega)]

/-! ## Stack pointer -/

theorem spDecrement_zero {s : State} (h : s.sp.toNat = 0) : spDecrement s = .error (.memoryBounds (-1)) := by
  rw [spDecrement, if_pos h]

theorem spDecrement_pos {s : State} (h : s.sp.toNat ≠ 0) : spDecrement s = .ok (s.sp - 1#8) := by
  rw [spDecrement, if_neg h]

theorem spIncrement_top {b : Byte} (h : b.toNat = 255) : spIncrement b = .error (.memoryBounds 256) := by
  rw [spIncrement, if_pos h]

theorem spIncrement_below {b : Byte} (h : b.toNat ≠ 255) : spIncrement b = .ok (b + 1#8) := by
  rw [spIncrement, if_neg h]

theorem spIncrement_error {b : Byte} {f : CoreFault} (h : spIncrement b = .error f) :
    f = .memoryBounds 256 ∧ b.toNat = 255 := by
  by_cases h0 : b.toNat = 255
  · rw [spIncrement_top h0] at h; cases h; exact ⟨rfl, h0⟩
  · rw [spIncrement_below h0] at h; cases h

/-! ## The cycle -/

/-- A cycle always answers a next state: the fault taken in the starting state, or the handler's state advanced
and checked for a halt. -/
theorem completeCycle_cases (len : Nat) (s : State) (h : Except CoreFault Handled) :
    (∃ f, h = .error f ∧ completeCycle len s h = .next (s.raise f)) ∨
    (∃ r, h = .ok r ∧ completeCycle len s h = .next (haltCheck (advance len r))) := by
  cases h with
  | error f => exact .inl ⟨f, rfl, rfl⟩
  | ok r => exact .inr ⟨r, rfl, rfl⟩

/-- With the halted bit clear the halt check changes nothing. -/
theorem haltCheck_clear {s : State} (h : s.halted = false) : haltCheck s = s := by
  simp [haltCheck, h]

/-- The halt check writes `run` and nothing else. -/
theorem haltCheck_frame (s : State) :
    (haltCheck s).mem = s.mem ∧ (haltCheck s).x = s.x ∧ (haltCheck s).pc = s.pc ∧ (haltCheck s).ir = s.ir ∧
    (haltCheck s).fl = s.fl ∧ (haltCheck s).halted = s.halted ∧ (haltCheck s).fault = s.fault ∧
    (haltCheck s).out = s.out ∧ (haltCheck s).run = if s.halted then .halted else s.run := by
  unfold haltCheck; split <;> simp [*]

/-- The advance writes `pc` and nothing else. -/
theorem advance_frame (len : Nat) (h : Handled) :
    (advance len h).mem = h.state.mem ∧ (advance len h).x = h.state.x ∧ (advance len h).ir = h.state.ir ∧
    (advance len h).fl = h.state.fl ∧ (advance len h).halted = h.state.halted ∧
    (advance len h).run = h.state.run ∧ (advance len h).fault = h.state.fault ∧
    (advance len h).out = h.state.out ∧
    (advance len h).pc = if h.pcWasSet then h.state.pc else h.state.pc + BitVec.ofNat 9 len := by
  unfold advance; split <;> simp [*]

end Sys2Proof.Machine
end

