-- ==== Sys2Proof/Laws/Exec.lean ====
section
/-! SUPPORT. `exec` as one cycle around one handler, and what the handlers can do. -/

namespace Sys2Proof.Machine

/-- The handler of each instruction (spec/44_execution_loop.md R196). -/
def handlerOf (i : Instr) (s : State) : Except CoreFault Handled :=
  match i with
  | .hlt => handleHlt s
  | .ret => handleRet s
  | .push r => handlePush r s
  | .pop r => handlePop r s
  | .prn r => handlePrn r s
  | .call r => handleCall r s
  | .jmp r => jumpIf true r s
  | .jeq r => jumpIf s.equalFlag r s
  | .jne r => jumpIf (!s.equalFlag) r s
  | .not a => aluOne .not a s
  | .ldi r v => handleLdi r v s
  | .add a b => aluTwo .add a b s
  | .sub a b => aluTwo .sub a b s
  | .mul a b => aluTwo .mul a b s
  | .div a b => aluTwo .div a b s
  | .mod a b => aluTwo .mod a b s
  | .cmp a b => handleCmp a b s
  | .and a b => aluTwo .and a b s
  | .or a b => aluTwo .or a b s
  | .xor a b => aluTwo .xor a b s
  | .shl a b => aluTwo .shl a b s
  | .shr a b => aluTwo .shr a b s

/-- Every instruction is its handler inside the one cycle. -/
theorem exec_eq_completeCycle (i : Instr) (s : State) :
    exec i s = completeCycle i.length s (handlerOf i s) := by
  cases i <;> rfl

/-- An instruction whose handler raises takes the fault in the state it started in. -/
theorem exec_of_error {i : Instr} {s : State} {f : CoreFault} (h : handlerOf i s = .error f) :
    exec i s = .next (s.raise f) := by
  rw [exec_eq_completeCycle, h]; rfl

/-- An instruction whose handler completes advances and makes the halt check. -/
theorem exec_of_ok {i : Instr} {s : State} {r : Handled} (h : handlerOf i s = .ok r) :
    exec i s = .next (haltCheck (advance i.length r)) := by
  rw [exec_eq_completeCycle, h]; rfl

/-- What `exec` answers: always a next state, by a fault taken or by a completed handler. -/
theorem exec_cases (i : Instr) (s : State) :
    (∃ f, handlerOf i s = .error f ∧ exec i s = .next (s.raise f)) ∨
    (∃ r, handlerOf i s = .ok r ∧ exec i s = .next (haltCheck (advance i.length r))) := by
  rw [exec_eq_completeCycle]; exact completeCycle_cases _ _ _

/-! ## Handlers on legal operands -/

theorem aluTwo_legal (op : AluOp) (a b : Fin 8) (s : State) :
    aluTwo op (regByte a) (regByte b) s =
      (aluResult op s.pc (s.reg a) (s.reg b) >>= fun v => .ok ⟨s.setReg a v, false⟩) := by
  simp [aluTwo, regIdx_regByte]

theorem aluOne_legal (op : AluOp) (a : Fin 8) (s : State) :
    aluOne op (regByte a) s =
      (aluResult op s.pc (s.reg a) (s.reg a) >>= fun v => .ok ⟨s.setReg a v, false⟩) := by
  simp [aluOne, regIdx_regByte]

theorem handleCmp_legal (a b : Fin 8) (s : State) :
    handleCmp (regByte a) (regByte b) s = .ok ⟨s.setFl (compareFlags (s.reg a) (s.reg b)), false⟩ := by
  simp [handleCmp, regIdx_regByte]

theorem jumpIf_legal (t : Bool) (r : Fin 8) (s : State) :
    jumpIf t (regByte r) s = if t then .ok ⟨s.setPcByte (s.reg r), true⟩ else .ok ⟨s, false⟩ := by
  simp [jumpIf, regIdx_regByte]

theorem handlePush_legal {s : State} (r : Fin 8) (h : s.sp.toNat ≠ 0) :
    handlePush (regByte r) s =
      .ok ⟨(s.setCell (s.sp - 1#8).toNat (regAfterDecrement s r (s.sp - 1#8))).setSp (s.sp - 1#8), false⟩ := by
  simp [handlePush, regIdx_regByte, spDecrement_pos h, memWrite_byte]

theorem handlePop_legal {s : State} (r : Fin 8)
    (h : (if r = Config.spIndex then s.mem.read s.sp.toNat else s.sp).toNat ≠ 255) :
    handlePop (regByte r) s =
      .ok ⟨(s.setReg r (s.mem.read s.sp.toNat)).setSp
        ((if r = Config.spIndex then s.mem.read s.sp.toNat else s.sp) + 1#8), false⟩ := by
  simp [handlePop, regIdx_regByte, memRead_byte, spIncrement_below h]

theorem handleCall_legal {s : State} (r : Fin 8) (h : s.sp.toNat ≠ 0) (hp : s.pc.toNat + 2 ≤ 255) :
    handleCall (regByte r) s =
      .ok ⟨((s.setCell (s.sp - 1#8).toNat (BitVec.ofNat 8 (s.pc.toNat + 2))).setSp (s.sp - 1#8)).setPcByte
        (regAfterDecrement s r (s.sp - 1#8)), true⟩ := by
  have : ¬ 255 < s.pc.toNat + 2 := by omega
  simp [handleCall, regIdx_regByte, spDecrement_pos h, memWrite_byte, returnAddress, this]

theorem handleRet_legal {s : State} (h : s.sp.toNat ≠ 255) :
    handleRet s = .ok ⟨(s.setPcByte (s.mem.read s.sp.toNat)).setSp (s.sp + 1#8), true⟩ := by
  simp [handleRet, memRead_byte, spIncrement_below h]

/-! ## What a completed handler did -/

theorem aluTwo_ok {op : AluOp} {opa opb : Byte} {s : State} {r : Handled} (h : aluTwo op opa opb s = .ok r) :
    ∃ a b v, opa = regByte a ∧ opb = regByte b ∧ aluResult op s.pc (s.reg a) (s.reg b) = .ok v ∧
      r = ⟨s.setReg a v, false⟩ := by
  obtain ⟨a, ha, h⟩ := Except.bind_ok_inv h
  obtain ⟨b, hb, h⟩ := Except.bind_ok_inv h
  obtain ⟨v, hv, h⟩ := Except.bind_ok_inv h
  exact ⟨a, b, v, regIdx_ok_iff.1 ha, regIdx_ok_iff.1 hb, hv, (Except.ok.inj h).symm⟩

theorem aluOne_ok {op : AluOp} {opa : Byte} {s : State} {r : Handled} (h : aluOne op opa s = .ok r) :
    ∃ a v, opa = regByte a ∧ aluResult op s.pc (s.reg a) (s.reg a) = .ok v ∧ r = ⟨s.setReg a v, false⟩ := by
  obtain ⟨a, ha, h⟩ := Except.bind_ok_inv h
  obtain ⟨v, hv, h⟩ := Except.bind_ok_inv h
  exact ⟨a, v, regIdx_ok_iff.1 ha, hv, (Except.ok.inj h).symm⟩

theorem handleCmp_ok {opa opb : Byte} {s : State} {r : Handled} (h : handleCmp opa opb s = .ok r) :
    ∃ a b, opa = regByte a ∧ opb = regByte b ∧
      r = ⟨s.setFl (compareFlags (s.reg a) (s.reg b)), false⟩ := by
  obtain ⟨a, ha, h⟩ := Except.bind_ok_inv h
  obtain ⟨b, hb, h⟩ := Except.bind_ok_inv h
  exact ⟨a, b, regIdx_ok_iff.1 ha, regIdx_ok_iff.1 hb, (Except.ok.inj h).symm⟩

theorem jumpIf_ok {t : Bool} {opa : Byte} {s : State} {r : Handled} (h : jumpIf t opa s = .ok r) :
    ∃ a, opa = regByte a ∧
      r = if t then ⟨s.setPcByte (s.reg a), true⟩ else ⟨s, false⟩ := by
  obtain ⟨a, ha, h⟩ := Except.bind_ok_inv h
  refine ⟨a, regIdx_ok_iff.1 ha, ?_⟩
  cases t <;> exact (Except.ok.inj h).symm

theorem handleLdi_ok {opa opb : Byte} {s : State} {r : Handled} (h : handleLdi opa opb s = .ok r) :
    ∃ a, opa = regByte a ∧ r = ⟨s.setReg a opb, false⟩ := by
  obtain ⟨a, ha, h⟩ := Except.bind_ok_inv h
  exact ⟨a, regIdx_ok_iff.1 ha, (Except.ok.inj h).symm⟩

theorem handlePrn_ok {opa : Byte} {s : State} {r : Handled} (h : handlePrn opa s = .ok r) :
    ∃ a, opa = regByte a ∧ r = ⟨s.emit (s.reg a), false⟩ := by
  obtain ⟨a, ha, h⟩ := Except.bind_ok_inv h
  exact ⟨a, regIdx_ok_iff.1 ha, (Except.ok.inj h).symm⟩

theorem handlePush_ok {opa : Byte} {s : State} {r : Handled} (h : handlePush opa s = .ok r) :
    ∃ a, opa = regByte a ∧ s.sp.toNat ≠ 0 ∧
      r = ⟨(s.setCell (s.sp - 1#8).toNat (regAfterDecrement s a (s.sp - 1#8))).setSp (s.sp - 1#8), false⟩ := by
  obtain ⟨a, ha, _⟩ := Except.bind_ok_inv h
  have ha := regIdx_ok_iff.1 ha
  by_cases h0 : s.sp.toNat = 0
  · simp [handlePush, ha, regIdx_regByte, spDecrement_zero h0] at h
  · rw [ha, handlePush_legal a h0] at h
    exact ⟨a, ha, h0, (Except.ok.inj h).symm⟩

theorem handlePop_ok {opa : Byte} {s : State} {r : Handled} (h : handlePop opa s = .ok r) :
    ∃ a, opa = regByte a ∧ (if a = Config.spIndex then s.mem.read s.sp.toNat else s.sp).toNat ≠ 255 ∧
      r = ⟨(s.setReg a (s.mem.read s.sp.toNat)).setSp
        ((if a = Config.spIndex then s.mem.read s.sp.toNat else s.sp) + 1#8), false⟩ := by
  obtain ⟨a, ha, _⟩ := Except.bind_ok_inv h
  have ha := regIdx_ok_iff.1 ha
  by_cases h0 : (if a = Config.spIndex then s.mem.read s.sp.toNat else s.sp).toNat = 255
  · simp [handlePop, ha, regIdx_regByte, memRead_byte, spIncrement_top h0] at h
  · rw [ha, handlePop_legal a h0] at h
    exact ⟨a, ha, h0, (Except.ok.inj h).symm⟩

theorem handleCall_ok {opa : Byte} {s : State} {r : Handled} (h : handleCall opa s = .ok r) :
    ∃ a, opa = regByte a ∧ s.sp.toNat ≠ 0 ∧ s.pc.toNat + 2 ≤ 255 ∧
      r = ⟨((s.setCell (s.sp - 1#8).toNat (BitVec.ofNat 8 (s.pc.toNat + 2))).setSp (s.sp - 1#8)).setPcByte
        (regAfterDecrement s a (s.sp - 1#8)), true⟩ := by
  obtain ⟨a, ha, _⟩ := Except.bind_ok_inv h
  have ha := regIdx_ok_iff.1 ha
  by_cases h0 : s.sp.toNat = 0
  · simp [handleCall, ha, regIdx_regByte, spDecrement_zero h0] at h
  · by_cases hp : s.pc.toNat + 2 ≤ 255
    · rw [ha, handleCall_legal a h0 hp] at h
      exact ⟨a, ha, h0, hp, (Except.ok.inj h).symm⟩
    · have : 255 < s.pc.toNat + 2 := by omega
      simp [handleCall, ha, regIdx_regByte, spDecrement_pos h0, returnAddress, this] at h

theorem handleRet_ok {s : State} {r : Handled} (h : handleRet s = .ok r) :
    s.sp.toNat ≠ 255 ∧ r = ⟨(s.setPcByte (s.mem.read s.sp.toNat)).setSp (s.sp + 1#8), true⟩ := by
  by_cases h0 : s.sp.toNat = 255
  · simp [handleRet, memRead_byte, spIncrement_top h0] at h
  · rw [handleRet_legal h0] at h
    exact ⟨h0, (Except.ok.inj h).symm⟩

/-- No handler writes ir, run or the fault record. -/
theorem handlerOf_keeps {i : Instr} {s : State} {r : Handled} (h : handlerOf i s = .ok r) :
    r.state.ir = s.ir ∧ r.state.run = s.run ∧ r.state.fault = s.fault := by
  cases i with
  | hlt => cases h; exact ⟨rfl, rfl, rfl⟩
  | ret => obtain ⟨-, rfl⟩ := handleRet_ok h; exact ⟨rfl, rfl, rfl⟩
  | push r => obtain ⟨_, -, -, rfl⟩ := handlePush_ok h; exact ⟨rfl, rfl, rfl⟩
  | pop r => obtain ⟨_, -, -, rfl⟩ := handlePop_ok h; exact ⟨rfl, rfl, rfl⟩
  | prn r => obtain ⟨_, -, rfl⟩ := handlePrn_ok h; exact ⟨rfl, rfl, rfl⟩
  | call r => obtain ⟨_, -, -, -, rfl⟩ := handleCall_ok h; exact ⟨rfl, rfl, rfl⟩
  | jmp r => obtain ⟨_, -, rfl⟩ := jumpIf_ok h; exact ⟨rfl, rfl, rfl⟩
  | jeq r => obtain ⟨_, -, rfl⟩ := jumpIf_ok h; split <;> exact ⟨rfl, rfl, rfl⟩
  | jne r => obtain ⟨_, -, rfl⟩ := jumpIf_ok h; split <;> exact ⟨rfl, rfl, rfl⟩
  | not a => obtain ⟨_, _, -, -, rfl⟩ := aluOne_ok h; exact ⟨rfl, rfl, rfl⟩
  | ldi r v => obtain ⟨_, -, rfl⟩ := handleLdi_ok h; exact ⟨rfl, rfl, rfl⟩
  | cmp a b => obtain ⟨_, _, -, -, rfl⟩ := handleCmp_ok h; exact ⟨rfl, rfl, rfl⟩
  | add a b | sub a b | mul a b | div a b | mod a b | and a b | or a b | xor a b | shl a b | shr a b =>
    obtain ⟨_, _, _, -, -, -, rfl⟩ := aluTwo_ok h; exact ⟨rfl, rfl, rfl⟩

/-- The next states of an instruction: its fault taken where it started, or its handler's state advanced and
checked for a halt. -/
theorem exec_next_inv {i : Instr} {s t : State} (h : exec i s = .next t) :
    (∃ f, handlerOf i s = .error f ∧ t = s.raise f) ∨
    (∃ r, handlerOf i s = .ok r ∧ t = haltCheck (advance i.length r)) := by
  rcases exec_cases i s with ⟨f, hf, e⟩ | ⟨r, hr, e⟩
  · rw [e] at h; cases h; exact .inl ⟨f, hf, rfl⟩
  · rw [e] at h; cases h; exact .inr ⟨r, hr, rfl⟩

/-! ## What a raised fault means -/

/-- The faults a handler can raise in a state, each with the exact condition it is raised under
(spec/60_exceptions.md R223 to R227). -/
inductive Raised (i : Instr) (s : State) : CoreFault → Prop
  | first {b : Byte} {rest : List Byte} : i.operands = b :: rest → 8 ≤ b.toNat → Raised i s (.registerBounds b)
  | second {a : Fin 8} {b : Byte} : i.operands = [regByte a, b] → (∀ r v, i ≠ .ldi r v) → 8 ≤ b.toNat →
      Raised i s (.registerBounds b)
  | divide {a b : Fin 8} : i = .div (regByte a) (regByte b) → (s.reg b).toNat = 0 → Raised i s (.divideByZero s.pc)
  | modulo {a b : Fin 8} : i = .mod (regByte a) (regByte b) → (s.reg b).toNat = 0 → Raised i s (.moduloByZero s.pc)
  | spLow {r : Fin 8} : i = .push (regByte r) ∨ i = .call (regByte r) → s.sp.toNat = 0 →
      Raised i s (.memoryBounds (-1))
  | returnHigh {r : Fin 8} : i = .call (regByte r) → s.sp.toNat ≠ 0 → 255 < s.pc.toNat + 2 →
      Raised i s (.memoryBounds ((s.pc.toNat : Int) + 2))
  | retHigh : i = .ret → s.sp.toNat = 255 → Raised i s (.memoryBounds 256)
  | popHigh {r : Fin 8} : i = .pop (regByte r) →
      (if r = Config.spIndex then s.mem.read s.sp.toNat else s.sp).toNat = 255 → Raised i s (.memoryBounds 256)

theorem Except.bind_error_inv {ε α β : Type} {x : Except ε α} {f : α → Except ε β} {e : ε}
    (h : (x >>= f) = .error e) : x = .error e ∨ ∃ a, x = .ok a ∧ f a = .error e := by
  cases x with
  | error e' => cases h; exact .inl rfl
  | ok a => exact .inr ⟨a, rfl, h⟩

theorem aluResult_error {op : AluOp} {p : Pc} {x y : Byte} {f : CoreFault} (h : aluResult op p x y = .error f) :
    y.toNat = 0 ∧ ((op = .div ∧ f = .divideByZero p) ∨ (op = .mod ∧ f = .moduloByZero p)) := by
  cases op <;> simp only [aluResult] at h <;> try cases h
  · split at h
    · rename_i h0; cases h; exact ⟨h0, .inl ⟨rfl, rfl⟩⟩
    · cases h
  · split at h
    · rename_i h0; cases h; exact ⟨h0, .inr ⟨rfl, rfl⟩⟩
    · cases h

theorem aluTwo_error {op : AluOp} {opa opb : Byte} {s : State} {f : CoreFault} (h : aluTwo op opa opb s = .error f) :
    (f = .registerBounds opa ∧ 8 ≤ opa.toNat) ∨
    (∃ a, opa = regByte a ∧ f = .registerBounds opb ∧ 8 ≤ opb.toNat) ∨
    ∃ a b, opa = regByte a ∧ opb = regByte b ∧ (s.reg b).toNat = 0 ∧
      ((op = .div ∧ f = .divideByZero s.pc) ∨ (op = .mod ∧ f = .moduloByZero s.pc)) := by
  rcases Except.bind_error_inv h with h | ⟨a, ha, h⟩
  · exact .inl (regIdx_error h)
  rcases Except.bind_error_inv h with h | ⟨b, hb, h⟩
  · exact .inr (.inl ⟨a, regIdx_ok_iff.1 ha, regIdx_error h⟩)
  rcases Except.bind_error_inv h with h | ⟨v, -, h⟩
  · exact .inr (.inr ⟨a, b, regIdx_ok_iff.1 ha, regIdx_ok_iff.1 hb, aluResult_error h⟩)
  · cases h

theorem aluNot_error {opa : Byte} {s : State} {f : CoreFault} (h : aluOne .not opa s = .error f) :
    f = .registerBounds opa ∧ 8 ≤ opa.toNat := by
  rcases Except.bind_error_inv h with h | ⟨a, -, h⟩
  · exact regIdx_error h
  · cases h

theorem jumpIf_error {t : Bool} {opa : Byte} {s : State} {f : CoreFault} (h : jumpIf t opa s = .error f) :
    f = .registerBounds opa ∧ 8 ≤ opa.toNat := by
  rcases Except.bind_error_inv h with h | ⟨a, -, h⟩
  · exact regIdx_error h
  · cases t <;> cases h

theorem handleCmp_error {opa opb : Byte} {s : State} {f : CoreFault} (h : handleCmp opa opb s = .error f) :
    (f = .registerBounds opa ∧ 8 ≤ opa.toNat) ∨
    ∃ a, opa = regByte a ∧ f = .registerBounds opb ∧ 8 ≤ opb.toNat := by
  rcases Except.bind_error_inv h with h | ⟨a, ha, h⟩
  · exact .inl (regIdx_error h)
  rcases Except.bind_error_inv h with h | ⟨b, -, h⟩
  · exact .inr ⟨a, regIdx_ok_iff.1 ha, regIdx_error h⟩
  · cases h

theorem handlePush_error {opa : Byte} {s : State} {f : CoreFault} (h : handlePush opa s = .error f) :
    (f = .registerBounds opa ∧ 8 ≤ opa.toNat) ∨
    ∃ a, opa = regByte a ∧ f = .memoryBounds (-1) ∧ s.sp.toNat = 0 := by
  rcases Except.bind_error_inv h with h | ⟨a, ha, h⟩
  · exact .inl (regIdx_error h)
  · by_cases h0 : s.sp.toNat = 0
    · rw [spDecrement_zero h0] at h; cases h; exact .inr ⟨a, regIdx_ok_iff.1 ha, rfl, h0⟩
    · simp [spDecrement_pos h0, memWrite_byte] at h

theorem handlePop_error {opa : Byte} {s : State} {f : CoreFault} (h : handlePop opa s = .error f) :
    (f = .registerBounds opa ∧ 8 ≤ opa.toNat) ∨
    ∃ a, opa = regByte a ∧ f = .memoryBounds 256 ∧
      (if a = Config.spIndex then s.mem.read s.sp.toNat else s.sp).toNat = 255 := by
  rcases Except.bind_error_inv h with h | ⟨a, ha, h⟩
  · exact .inl (regIdx_error h)
  · rw [memRead_byte, Except.ok_bind'] at h
    rcases Except.bind_error_inv h with h | ⟨v, -, h⟩
    · exact .inr ⟨a, regIdx_ok_iff.1 ha, spIncrement_error h⟩
    · cases h

theorem handleCall_error {opa : Byte} {s : State} {f : CoreFault} (h : handleCall opa s = .error f) :
    (f = .registerBounds opa ∧ 8 ≤ opa.toNat) ∨
    ∃ a, opa = regByte a ∧ ((f = .memoryBounds (-1) ∧ s.sp.toNat = 0) ∨
      (f = .memoryBounds ((s.pc.toNat : Int) + 2) ∧ s.sp.toNat ≠ 0 ∧ 255 < s.pc.toNat + 2)) := by
  rcases Except.bind_error_inv h with h | ⟨a, ha, h⟩
  · exact .inl (regIdx_error h)
  · refine .inr ⟨a, regIdx_ok_iff.1 ha, ?_⟩
    by_cases h0 : s.sp.toNat = 0
    · rw [spDecrement_zero h0] at h; cases h; exact .inl ⟨rfl, h0⟩
    · rw [spDecrement_pos h0, Except.ok_bind'] at h
      rcases Except.bind_error_inv h with h | ⟨v, -, h⟩
      · unfold returnAddress at h; split at h
        · rename_i hp; cases h; exact .inr ⟨rfl, h0, hp⟩
        · cases h
      · rw [memWrite_byte] at h; cases h

theorem handleRet_error {s : State} {f : CoreFault} (h : handleRet s = .error f) :
    f = .memoryBounds 256 ∧ s.sp.toNat = 255 := by
  by_cases h0 : s.sp.toNat = 255
  · simp [handleRet, memRead_byte, spIncrement_top h0] at h; exact ⟨h.symm, h0⟩
  · rw [handleRet_legal h0] at h; cases h

/-- Every fault a handler raises is raised under the condition of its kind and its instruction. -/
theorem handlerOf_error {i : Instr} {s : State} {f : CoreFault} (h : handlerOf i s = .error f) : Raised i s f := by
  have one : ∀ {b : Byte} {rest : List Byte}, i.operands = b :: rest →
      f = .registerBounds b ∧ 8 ≤ b.toNat → Raised i s f := by
    rintro b rest ho ⟨rfl, h8⟩; exact .first ho h8
  have snd : ∀ {a b : Byte}, i.operands = [a, b] → (∀ r v, i ≠ .ldi r v) →
      (∃ x, a = regByte x ∧ f = .registerBounds b ∧ 8 ≤ b.toNat) → Raised i s f := by
    rintro a b ho hl ⟨x, rfl, rfl, h8⟩; exact .second ho hl h8
  have two : ∀ {op : AluOp} {a b : Byte}, i.operands = [a, b] → (∀ r v, i ≠ .ldi r v) →
      (op = .div → i = .div a b) → (op = .mod → i = .mod a b) → aluTwo op a b s = .error f → Raised i s f := by
    intro op a b ho hl hd hm h
    rcases aluTwo_error h with h | h | ⟨x, y, rfl, rfl, h0, ⟨rfl, rfl⟩ | ⟨rfl, rfl⟩⟩
    · exact one ho h
    · exact snd ho hl h
    · exact .divide (hd rfl) h0
    · exact .modulo (hm rfl) h0
  cases i with
  | hlt => cases h
  | ret => obtain ⟨rfl, h0⟩ := handleRet_error h; exact .retHigh rfl h0
  | push r =>
    rcases handlePush_error h with h | ⟨a, rfl, rfl, h0⟩
    · exact one rfl h
    · exact .spLow (.inl rfl) h0
  | pop r =>
    rcases handlePop_error h with h | ⟨a, rfl, rfl, h0⟩
    · exact one rfl h
    · exact .popHigh rfl h0
  | call r =>
    rcases handleCall_error h with h | ⟨a, rfl, ⟨rfl, h0⟩ | ⟨rfl, h0, hp⟩⟩
    · exact one rfl h
    · exact .spLow (.inr rfl) h0
    · exact .returnHigh rfl h0 hp
  | prn r =>
    rcases Except.bind_error_inv h with h | ⟨a, -, h⟩
    · exact one rfl (regIdx_error h)
    · cases h
  | jmp r => exact one rfl (jumpIf_error h)
  | jeq r => exact one rfl (jumpIf_error h)
  | jne r => exact one rfl (jumpIf_error h)
  | not a => exact one rfl (aluNot_error h)
  | ldi r v =>
    rcases Except.bind_error_inv h with h | ⟨a, -, h⟩
    · exact one rfl (regIdx_error h)
    · cases h
  | cmp a b =>
    rcases handleCmp_error h with h | h
    · exact one rfl h
    · exact snd rfl (by simp) h
  | add a b | sub a b | mul a b | div a b | mod a b | and a b | or a b | xor a b | shl a b | shr a b =>
    exact two rfl (by simp) (by simp) (by simp) h

end Sys2Proof.Machine
end

