-- ==== Sys2Proof/Laws/PerInstr.lean ====
section
/-! SUPPORT. One lemma per instruction about its encoding. -/

namespace Sys2Proof.Laws.Encoding

/-- The opcode byte is one of the opcode map's, and the encoding has `len` = bits 7:6 plus 1 bytes, 1 to 3
(spec/30_encoding.md R80, R81, R87). -/
def Statement (i : Instr) : Prop :=
  isOpcode i.opcode = true ∧ (encode i).length = i.length ∧ 1 ≤ i.length ∧ i.length ≤ 3

theorem hlt : Statement (.hlt) :=
  ⟨(by decide : isOpcode 0x01#8 = true), (by decide : 1 = lenOfOpcode 0x01#8), (by decide : 1 ≤ lenOfOpcode 0x01#8),
    (by decide : lenOfOpcode 0x01#8 ≤ 3)⟩
theorem ret : Statement (.ret) :=
  ⟨(by decide : isOpcode 0x11#8 = true), (by decide : 1 = lenOfOpcode 0x11#8), (by decide : 1 ≤ lenOfOpcode 0x11#8),
    (by decide : lenOfOpcode 0x11#8 ≤ 3)⟩
theorem push (r : Byte) : Statement (.push r) :=
  ⟨(by decide : isOpcode 0x45#8 = true), (by decide : 2 = lenOfOpcode 0x45#8), (by decide : 1 ≤ lenOfOpcode 0x45#8),
    (by decide : lenOfOpcode 0x45#8 ≤ 3)⟩
theorem pop (r : Byte) : Statement (.pop r) :=
  ⟨(by decide : isOpcode 0x46#8 = true), (by decide : 2 = lenOfOpcode 0x46#8), (by decide : 1 ≤ lenOfOpcode 0x46#8),
    (by decide : lenOfOpcode 0x46#8 ≤ 3)⟩
theorem prn (r : Byte) : Statement (.prn r) :=
  ⟨(by decide : isOpcode 0x47#8 = true), (by decide : 2 = lenOfOpcode 0x47#8), (by decide : 1 ≤ lenOfOpcode 0x47#8),
    (by decide : lenOfOpcode 0x47#8 ≤ 3)⟩
theorem call (r : Byte) : Statement (.call r) :=
  ⟨(by decide : isOpcode 0x50#8 = true), (by decide : 2 = lenOfOpcode 0x50#8), (by decide : 1 ≤ lenOfOpcode 0x50#8),
    (by decide : lenOfOpcode 0x50#8 ≤ 3)⟩
theorem jmp (r : Byte) : Statement (.jmp r) :=
  ⟨(by decide : isOpcode 0x54#8 = true), (by decide : 2 = lenOfOpcode 0x54#8), (by decide : 1 ≤ lenOfOpcode 0x54#8),
    (by decide : lenOfOpcode 0x54#8 ≤ 3)⟩
theorem jeq (r : Byte) : Statement (.jeq r) :=
  ⟨(by decide : isOpcode 0x55#8 = true), (by decide : 2 = lenOfOpcode 0x55#8), (by decide : 1 ≤ lenOfOpcode 0x55#8),
    (by decide : lenOfOpcode 0x55#8 ≤ 3)⟩
theorem jne (r : Byte) : Statement (.jne r) :=
  ⟨(by decide : isOpcode 0x56#8 = true), (by decide : 2 = lenOfOpcode 0x56#8), (by decide : 1 ≤ lenOfOpcode 0x56#8),
    (by decide : lenOfOpcode 0x56#8 ≤ 3)⟩
theorem not (a : Byte) : Statement (.not a) :=
  ⟨(by decide : isOpcode 0x69#8 = true), (by decide : 2 = lenOfOpcode 0x69#8), (by decide : 1 ≤ lenOfOpcode 0x69#8),
    (by decide : lenOfOpcode 0x69#8 ≤ 3)⟩
theorem ldi (r v : Byte) : Statement (.ldi r v) :=
  ⟨(by decide : isOpcode 0x82#8 = true), (by decide : 3 = lenOfOpcode 0x82#8), (by decide : 1 ≤ lenOfOpcode 0x82#8),
    (by decide : lenOfOpcode 0x82#8 ≤ 3)⟩
theorem add (a b : Byte) : Statement (.add a b) :=
  ⟨(by decide : isOpcode 0xA0#8 = true), (by decide : 3 = lenOfOpcode 0xA0#8), (by decide : 1 ≤ lenOfOpcode 0xA0#8),
    (by decide : lenOfOpcode 0xA0#8 ≤ 3)⟩
theorem sub (a b : Byte) : Statement (.sub a b) :=
  ⟨(by decide : isOpcode 0xA1#8 = true), (by decide : 3 = lenOfOpcode 0xA1#8), (by decide : 1 ≤ lenOfOpcode 0xA1#8),
    (by decide : lenOfOpcode 0xA1#8 ≤ 3)⟩
theorem mul (a b : Byte) : Statement (.mul a b) :=
  ⟨(by decide : isOpcode 0xA2#8 = true), (by decide : 3 = lenOfOpcode 0xA2#8), (by decide : 1 ≤ lenOfOpcode 0xA2#8),
    (by decide : lenOfOpcode 0xA2#8 ≤ 3)⟩
theorem div (a b : Byte) : Statement (.div a b) :=
  ⟨(by decide : isOpcode 0xA3#8 = true), (by decide : 3 = lenOfOpcode 0xA3#8), (by decide : 1 ≤ lenOfOpcode 0xA3#8),
    (by decide : lenOfOpcode 0xA3#8 ≤ 3)⟩
theorem mod (a b : Byte) : Statement (.mod a b) :=
  ⟨(by decide : isOpcode 0xA4#8 = true), (by decide : 3 = lenOfOpcode 0xA4#8), (by decide : 1 ≤ lenOfOpcode 0xA4#8),
    (by decide : lenOfOpcode 0xA4#8 ≤ 3)⟩
theorem cmp (a b : Byte) : Statement (.cmp a b) :=
  ⟨(by decide : isOpcode 0xA7#8 = true), (by decide : 3 = lenOfOpcode 0xA7#8), (by decide : 1 ≤ lenOfOpcode 0xA7#8),
    (by decide : lenOfOpcode 0xA7#8 ≤ 3)⟩
theorem and (a b : Byte) : Statement (.and a b) :=
  ⟨(by decide : isOpcode 0xA8#8 = true), (by decide : 3 = lenOfOpcode 0xA8#8), (by decide : 1 ≤ lenOfOpcode 0xA8#8),
    (by decide : lenOfOpcode 0xA8#8 ≤ 3)⟩
theorem or (a b : Byte) : Statement (.or a b) :=
  ⟨(by decide : isOpcode 0xAA#8 = true), (by decide : 3 = lenOfOpcode 0xAA#8), (by decide : 1 ≤ lenOfOpcode 0xAA#8),
    (by decide : lenOfOpcode 0xAA#8 ≤ 3)⟩
theorem xor (a b : Byte) : Statement (.xor a b) :=
  ⟨(by decide : isOpcode 0xAB#8 = true), (by decide : 3 = lenOfOpcode 0xAB#8), (by decide : 1 ≤ lenOfOpcode 0xAB#8),
    (by decide : lenOfOpcode 0xAB#8 ≤ 3)⟩
theorem shl (a b : Byte) : Statement (.shl a b) :=
  ⟨(by decide : isOpcode 0xAC#8 = true), (by decide : 3 = lenOfOpcode 0xAC#8), (by decide : 1 ≤ lenOfOpcode 0xAC#8),
    (by decide : lenOfOpcode 0xAC#8 ≤ 3)⟩
theorem shr (a b : Byte) : Statement (.shr a b) :=
  ⟨(by decide : isOpcode 0xAD#8 = true), (by decide : 3 = lenOfOpcode 0xAD#8), (by decide : 1 ≤ lenOfOpcode 0xAD#8),
    (by decide : lenOfOpcode 0xAD#8 ≤ 3)⟩

end Sys2Proof.Laws.Encoding
end

