-- ==== Sys2Proof/Laws/Step.lean ====
section
/-! SUPPORT. What the fetch and a step can do. -/

namespace Sys2Proof.Machine

theorem fetchOpcode_inside {s : State} (h : s.pc.toNat ≤ 255) :
    fetchOpcode s = .ok (s.setIr (s.mem.read s.pc.toNat)) := by
  simp [fetchOpcode, memRead_inside s h]

theorem fetchOpcode_above {s : State} (h : 255 < s.pc.toNat) :
    fetchOpcode s = .error (.memoryBounds s.pc.toNat) := by
  simp [fetchOpcode, memRead_above s h]

/-- What the decoder may look at, by how far pc is from the top of memory. -/
theorem fetchWindow_cases {s : State} (h : s.pc.toNat ≤ 255) :
    (s.pc.toNat ≤ 253 ∧
      fetchWindow s = [s.ir, s.mem.read (s.pc.toNat + 1), s.mem.read (s.pc.toNat + 2)]) ∨
    (s.pc.toNat = 254 ∧ fetchWindow s = [s.ir, s.mem.read 255]) ∨
    (s.pc.toNat = 255 ∧ fetchWindow s = [s.ir]) := by
  simp only [fetchWindow, bytesFrom]
  by_cases h1 : s.pc.toNat + 1 < 256
  · by_cases h2 : s.pc.toNat + 1 + 1 < 256
    · exact .inl ⟨by omega, by rw [if_pos h1, if_pos h2]⟩
    · have : s.pc.toNat = 254 := by omega
      exact .inr (.inl ⟨this, by rw [if_pos h1, if_neg h2, this]⟩)
  · exact .inr (.inr ⟨by omega, by rw [if_neg h1]⟩)

/-- What a fetch can do: raise at the opcode, raise after ir is written, or hand over an instruction. -/
theorem fetchPhase_cases (s : State) :
    (255 < s.pc.toNat ∧ fetchPhase s = .error (s.raise (.memoryBounds s.pc.toNat))) ∨
    (s.pc.toNat ≤ 255 ∧ ∃ e, decode (fetchWindow (s.setIr (s.mem.read s.pc.toNat))) = .error e ∧
      fetchPhase s = .error ((s.setIr (s.mem.read s.pc.toNat)).raise (decodeFault s.pc e))) ∨
    (s.pc.toNat ≤ 255 ∧ ∃ i, decode (fetchWindow (s.setIr (s.mem.read s.pc.toNat))) = .ok i ∧
      fetchPhase s = .ok (i, s.setIr (s.mem.read s.pc.toNat))) := by
  by_cases h : s.pc.toNat ≤ 255
  · cases hd : decode (fetchWindow (s.setIr (s.mem.read s.pc.toNat))) with
    | error e => exact .inr (.inl ⟨h, e, rfl, by simp [fetchPhase, fetchOpcode_inside h, fetchInstr, hd]⟩)
    | ok i => exact .inr (.inr ⟨h, i, rfl, by simp [fetchPhase, fetchOpcode_inside h, fetchInstr, hd]⟩)
  · exact .inl ⟨by omega, by simp [fetchPhase, fetchOpcode_above (by omega : 255 < s.pc.toNat)]⟩

theorem step_running {s : State} (h : s.run = .running) :
    step s = match fetchPhase s with
      | .error t => .next t
      | .ok (i, s1) => exec i s1 := by
  cases hf : fetchPhase s <;> simp [step, stopped, h, hf]

/-- A step that answers a next state started on a RUNNING core. -/
theorem running_of_step {s t : State} (h : step s = .next t) : s.run = .running := by
  cases hr : s.run with
  | running => rfl
  | halted => simp [step, stopped, hr] at h
  | faulted => simp [step, stopped, hr] at h

/-- The next states of a step: a fault at the opcode fetch, a fault after ir is written, or the decoded
instruction run in the state whose ir is written. -/
theorem step_next_inv {s t : State} (h : step s = .next t) :
    s.run = .running ∧
    ((255 < s.pc.toNat ∧ t = s.raise (.memoryBounds s.pc.toNat)) ∨
     (s.pc.toNat ≤ 255 ∧ ∃ e, decode (fetchWindow (s.setIr (s.mem.read s.pc.toNat))) = .error e ∧
       t = (s.setIr (s.mem.read s.pc.toNat)).raise (decodeFault s.pc e)) ∨
     (s.pc.toNat ≤ 255 ∧ ∃ i, decode (fetchWindow (s.setIr (s.mem.read s.pc.toNat))) = .ok i ∧
       exec i (s.setIr (s.mem.read s.pc.toNat)) = .next t)) := by
  have hr := running_of_step h
  refine ⟨hr, ?_⟩
  rw [step_running hr] at h
  rcases fetchPhase_cases s with ⟨hp, e⟩ | ⟨hp, d, hd, e⟩ | ⟨hp, i, hi, e⟩
  · rw [e] at h; cases h; exact .inl ⟨hp, rfl⟩
  · rw [e] at h; cases h; exact .inr (.inl ⟨hp, d, hd, rfl⟩)
  · rw [e] at h; exact .inr (.inr ⟨hp, i, hi, h⟩)

end Sys2Proof.Machine
end

