-- ==== Sys2Proof/Tests/Slice0.lean ====
section
/-! SUPPORT. Own tests, expected results from spec/30_encoding.md R87 and spec/95_test_vectors.md; and a witness for
the hypotheses of every statement of Certificates/Slice0/Obligations.lean that has any. -/

namespace Sys2Proof.Tests

open Sys2Proof Sys2Proof.Machine

/-! ## Ill-formed terms are refused -/

theorem test_wf_refuses_single : ∀ mk ∈ [Instr.push, .pop, .prn, .call, .jmp, .jeq, .jne, .not],
    Instr.WellFormed (mk 8) = false ∧ Instr.WellFormed (mk 7) = true := by decide

theorem test_wf_refuses_ldi : Instr.WellFormed (.ldi 8 0) = false ∧ Instr.WellFormed (.ldi 7 255) = true := by decide

theorem test_wf_refuses_first : ∀ mk ∈ [Instr.add, .sub, .mul, .div, .mod, .cmp, .and, .or, .xor, .shl, .shr],
    Instr.WellFormed (mk 8 0) = false ∧ Instr.WellFormed (mk 7 7) = true := by decide

theorem test_wf_refuses_second : ∀ mk ∈ [Instr.add, .sub, .mul, .div, .mod, .cmp, .and, .or, .xor, .shl, .shr],
    Instr.WellFormed (mk 0 8) = false := by decide

/-! ## Decoding: words written out from spec/30_encoding.md R80 and R87 -/

theorem test_decode_hlt : decode [0b00000001#8] = .ok (.hlt) := by decide
theorem test_decode_ret : decode [0b00010001#8] = .ok (.ret) := by decide
theorem test_decode_push : decode [0b01000101#8, 0b00000011#8] = .ok (.push 3) := by decide
theorem test_decode_pop : decode [0b01000110#8, 0b00000010#8] = .ok (.pop 2) := by decide
theorem test_decode_prn : decode [0b01000111#8, 0b00000111#8] = .ok (.prn 7) := by decide
theorem test_decode_call : decode [0b01010000#8, 0b00000001#8] = .ok (.call 1) := by decide
theorem test_decode_jmp : decode [0b01010100#8, 0b00000110#8] = .ok (.jmp 6) := by decide
theorem test_decode_jeq : decode [0b01010101#8, 0b00000101#8] = .ok (.jeq 5) := by decide
theorem test_decode_jne : decode [0b01010110#8, 0b00000100#8] = .ok (.jne 4) := by decide
theorem test_decode_not : decode [0b01101001#8, 0b00000010#8] = .ok (.not 2) := by decide
theorem test_decode_ldi : decode [0b10000010#8, 0b00000001#8, 0b10000001#8] = .ok (.ldi 1 129) := by decide
theorem test_decode_add : decode [0b10100000#8, 0b00000000#8, 0b00000001#8] = .ok (.add 0 1) := by decide
theorem test_decode_sub : decode [0b10100001#8, 0b00000001#8, 0b00000010#8] = .ok (.sub 1 2) := by decide
theorem test_decode_mul : decode [0b10100010#8, 0b00000010#8, 0b00000011#8] = .ok (.mul 2 3) := by decide
theorem test_decode_div : decode [0b10100011#8, 0b00000011#8, 0b00000100#8] = .ok (.div 3 4) := by decide
theorem test_decode_mod : decode [0b10100100#8, 0b00000100#8, 0b00000101#8] = .ok (.mod 4 5) := by decide
theorem test_decode_cmp : decode [0b10100111#8, 0b00000101#8, 0b00000110#8] = .ok (.cmp 5 6) := by decide
theorem test_decode_and : decode [0b10101000#8, 0b00000110#8, 0b00000111#8] = .ok (.and 6 7) := by decide
theorem test_decode_or : decode [0b10101010#8, 0b00000111#8, 0b00000000#8] = .ok (.or 7 0) := by decide
theorem test_decode_xor : decode [0b10101011#8, 0b00000000#8, 0b00000010#8] = .ok (.xor 0 2) := by decide
theorem test_decode_shl : decode [0b10101100#8, 0b00000001#8, 0b00000011#8] = .ok (.shl 1 3) := by decide
theorem test_decode_shr : decode [0b10101101#8, 0b00000010#8, 0b00000100#8] = .ok (.shr 2 4) := by decide

/-- Bytes after the instruction are not looked at (spec/30_encoding.md R91; V-FD-19). -/
theorem test_decode_ignores_rest : decode [0x01#8, 0xFF#8, 0xFF#8] = .ok .hlt := by decide

/-- LS-8 bytes that are no instructions here, and gaps (V-FD-4 to V-FD-6). -/
theorem test_decode_unknown : ∀ b ∈ [0x00#8, 0x65#8, 0xA5#8, 0xA6#8, 0xA9#8, 0x41#8, 0xC0#8, 0xFF#8],
    decode [b, 0, 1] = .error (.unknownOpcode b) := by decide

/-- A table word: first byte in the low bits, operand bytes above; the missing operands read 0. -/
theorem test_table_word : decodeTableWord 24 0x0901A0 = some (.add 1 9) ∧ decodeTableWord 8 0x82 = some (.ldi 0 0) ∧
    decodeTableWord 8 0x00 = none := by decide

/-! ## One step each, from spec/95_test_vectors.md -/

/-- Reset state with pc at `p` and bytes stored from there. -/
def stAt (p : Nat) (bytes : List Byte) : State :=
  placeAtPc { State.reset with pc := BitVec.ofNat 9 p } bytes

/-- Registers R0 and R1 set. -/
def regs01 (s : State) (a b : Byte) : State := (s.setReg 0 a).setReg 1 b

/-- A view of the next state, if there is one. -/
def look {α : Type} (r : Result) (f : State → α) : Option α :=
  match r with
  | .next t => some (f t)
  | .fault _ => none
  | .refused _ => none

/-- V-ALU-A3. -/
theorem test_add_carry_lost : look (step (regs01 (stAt 0x10 [0xA0#8, 0#8, 1#8]) 0xFF 0xFF)) (fun t => (t.reg 0, t.reg 1, t.pc)) =
    some (0xFE, 0xFF, 0x13) := by decide

/-- V-ALU-A5. -/
theorem test_add_same : look (step (regs01 (stAt 0x10 [0xA0#8, 0#8, 0#8]) 0x81 0x3C)) (fun t => (t.reg 0, t.reg 1, t.pc)) =
    some (0x02, 0x3C, 0x13) := by decide

/-- V-ALU-S2. -/
theorem test_sub_wraps : look (step (regs01 (stAt 0x10 [0xA1#8, 0#8, 1#8]) 0x03 0x05)) (fun t => (t.reg 0, t.reg 1, t.pc)) =
    some (0xFE, 0x05, 0x13) := by decide

/-- V-ALU-S5. -/
theorem test_sub_same : look (step (regs01 (stAt 0x10 [0xA1#8, 0#8, 0#8]) 0x9C 0x3C)) (fun t => (t.reg 0, t.reg 1, t.pc)) =
    some (0x00, 0x3C, 0x13) := by decide

/-- V-ALU-M5. -/
theorem test_mul_low_byte : look (step (regs01 (stAt 0x10 [0xA2#8, 0#8, 1#8]) 0xC8 0x03)) (fun t => (t.reg 0, t.reg 1, t.pc)) =
    some (0x58, 0x03, 0x13) := by decide

/-- V-ALU-M7. -/
theorem test_mul_same : look (step (regs01 (stAt 0x10 [0xA2#8, 0#8, 0#8]) 0x11 0x3C)) (fun t => (t.reg 0, t.reg 1, t.pc)) =
    some (0x21, 0x3C, 0x13) := by decide

/-- V-ALU-D4. -/
theorem test_div_floor : look (step (regs01 (stAt 0x10 [0xA3#8, 0#8, 1#8]) 0xC8 0x03)) (fun t => (t.reg 0, t.reg 1, t.pc)) =
    some (0x42, 0x03, 0x13) := by decide

/-- V-ALU-R2. -/
theorem test_mod_remainder : look (step (regs01 (stAt 0x10 [0xA4#8, 0#8, 1#8]) 0xFF 0x10)) (fun t => (t.reg 0, t.reg 1, t.pc)) =
    some (0x0F, 0x10, 0x13) := by decide

/-- V-ALU-L1. -/
theorem test_and : look (step (regs01 (stAt 0x10 [0xA8#8, 0#8, 1#8]) 0xF0 0x3C)) (fun t => (t.reg 0, t.reg 1, t.pc)) =
    some (0x30, 0x3C, 0x13) := by decide

/-- V-ALU-L4. -/
theorem test_or : look (step (regs01 (stAt 0x10 [0xAA#8, 0#8, 1#8]) 0xF0 0x3C)) (fun t => (t.reg 0, t.reg 1, t.pc)) =
    some (0xFC, 0x3C, 0x13) := by decide

/-- V-ALU-L7. -/
theorem test_xor : look (step (regs01 (stAt 0x10 [0xAB#8, 0#8, 1#8]) 0xF0 0x3C)) (fun t => (t.reg 0, t.reg 1, t.pc)) =
    some (0xCC, 0x3C, 0x13) := by decide

/-- V-ALU-L9. -/
theorem test_xor_same : look (step (regs01 (stAt 0x10 [0xAB#8, 0#8, 0#8]) 0x77 0x3C)) (fun t => (t.reg 0, t.reg 1, t.pc)) =
    some (0x00, 0x3C, 0x13) := by decide

/-- V-ALU-N3. -/
theorem test_not : look (step (regs01 (stAt 0x10 [0x69#8, 0#8]) 0x5A 0x3C)) (fun t => (t.reg 0, t.reg 1, t.pc)) =
    some (0xA5, 0x3C, 0x12) := by decide

/-- V-ALU-H6. -/
theorem test_shl_amount_whole : look (step (regs01 (stAt 0x10 [0xAC#8, 0#8, 1#8]) 0x01 0x09)) (fun t => (t.reg 0, t.reg 1, t.pc)) =
    some (0x00, 0x09, 0x13) := by decide

/-- V-ALU-H8. -/
theorem test_shl_same : look (step (regs01 (stAt 0x10 [0xAC#8, 0#8, 0#8]) 0x03 0x3C)) (fun t => (t.reg 0, t.reg 1, t.pc)) =
    some (0x18, 0x3C, 0x13) := by decide

/-- V-ALU-G2. -/
theorem test_shr_zero_enters : look (step (regs01 (stAt 0x10 [0xAD#8, 0#8, 1#8]) 0x81 0x01)) (fun t => (t.reg 0, t.reg 1, t.pc)) =
    some (0x40, 0x01, 0x13) := by decide

/-- V-ALU-G6. -/
theorem test_shr_amount_whole : look (step (regs01 (stAt 0x10 [0xAD#8, 0#8, 1#8]) 0x80 0x0F)) (fun t => (t.reg 0, t.reg 1, t.pc)) =
    some (0x00, 0x0F, 0x13) := by decide

/-- V-ALU-D6: nothing but ir, run and the record changes. -/
theorem test_div_by_zero : look (step (regs01 (stAt 0x10 [0xA3#8, 0#8, 1#8]) 7 0))
    (fun t => (t.reg 0, t.pc, t.ir, t.run, t.fault)) =
    some (7, 0x10, 0xA3, .faulted, some (.divideByZero 0x10)) := by decide

/-- V-ALU-R6. -/
theorem test_mod_by_zero : look (step (regs01 (stAt 0x10 [0xA4#8, 0#8, 1#8]) 7 0))
    (fun t => (t.reg 0, t.pc, t.run, t.fault)) = some (7, 0x10, .faulted, some (.moduloByZero 0x10)) := by decide

/-- V-BR-1d: unsigned. -/
theorem test_cmp_unsigned : look (step (regs01 (stAt 0x10 [0xA7#8, 0#8, 1#8]) 0xFF 0x01)) (fun t => (t.fl, t.pc)) =
    some (0b100, 0x13) := by decide

/-- V-BR-1a: the old flags are discarded. -/
theorem test_cmp_equal : look (step ((regs01 (stAt 0x10 [0xA7#8, 0#8, 1#8]) 5 5).setFl 0b100)) (fun t => t.fl) =
    some 0b001 := by decide

/-- V-BR-7. -/
theorem test_jmp : look (step ((stAt 0x10 [0x54#8, 2#8]).setReg 2 0xFF)) (fun t => t.pc) = some 0xFF := by decide

/-- V-BR-2. -/
theorem test_jeq_taken : look (step (((stAt 0x10 [0x55#8, 2#8]).setReg 2 0x20).setFl 0b001)) (fun t => t.pc) =
    some 0x20 := by decide

/-- V-BR-3. -/
theorem test_jeq_not_taken : look (step (((stAt 0x10 [0x55#8, 2#8]).setReg 2 0x20).setFl 0b100)) (fun t => t.pc) =
    some 0x12 := by decide

/-- V-BR-4c. -/
theorem test_jne_taken : look (step ((stAt 0x10 [0x56#8, 2#8]).setReg 2 0x20)) (fun t => t.pc) = some 0x20 := by decide

/-- V-BR-5. -/
theorem test_jne_not_taken : look (step (((stAt 0x10 [0x56#8, 2#8]).setReg 2 0x20).setFl 0b001)) (fun t => t.pc) =
    some 0x12 := by decide

/-- V-ST-8: PUSH R7 stores the decremented SP. -/
theorem test_push_sp : look (step (stAt 0x10 [0x45#8, 7#8])) (fun t => (t.mem.read 0xF3, t.sp, t.pc)) =
    some (0xF3, 0xF3, 0x12) := by decide

/-- V-ST-5. -/
theorem test_push_at_zero : look (step ((stAt 0x10 [0x45#8, 0#8]).setSp 0)) (fun t => (t.sp, t.run, t.fault)) =
    some (0, .faulted, some (.memoryBounds (-1))) := by decide

/-- V-ST-2. -/
theorem test_pop : look (step (((stAt 0x10 [0x46#8, 2#8]).setSp 0xF2).setCell 0xF2 7))
    (fun t => (t.reg 2, t.sp, t.mem.read 0xF2)) = some (7, 0xF3, 7) := by decide

/-- V-ST-9b: POP R7 increments what it loaded. -/
theorem test_pop_sp : look (step (((stAt 0x10 [0x46#8, 7#8]).setSp 0xF0).setCell 0xF0 0x20)) (fun t => t.sp) =
    some 0x21 := by decide

/-- V-ST-11: CALL R7 jumps to the decremented SP. -/
theorem test_call_sp : look (step (stAt 0x06 [0x50#8, 7#8])) (fun t => (t.mem.read 0xF3, t.sp, t.pc)) =
    some (0x08, 0xF3, 0xF3) := by decide

/-- V-ST-16: no byte can hold the return address 256. -/
theorem test_call_at_top : look (step (stAt 0xFE [0x50#8, 1#8])) (fun t => (t.sp, t.pc, t.fault)) =
    some (0xF4, 0xFE, some (.memoryBounds 256)) := by decide

/-- V-ST-12. -/
theorem test_ret : look (step (((stAt 0x10 [0x11#8]).setSp 0xF3).setCell 0xF3 0x08)) (fun t => (t.pc, t.sp)) =
    some (0x08, 0xF4) := by decide

/-- V-ST-14. -/
theorem test_ret_at_top : look (step ((stAt 0x10 [0x11#8]).setSp 0xFF)) (fun t => (t.sp, t.fault)) =
    some (0xFF, some (.memoryBounds 256)) := by decide

/-- V-CO-2: the immediate is no register index. -/
theorem test_ldi : look (step (stAt 0x10 [0x82#8, 3#8, 0xFF#8])) (fun t => (t.reg 3, t.pc)) = some (0xFF, 0x13) := by
  decide

/-- V-CO-5. -/
theorem test_prn : look (step (((stAt 0x10 [0x47#8, 1#8]).setReg 1 0xFF).emit 17)) (fun t => (t.out, t.pc)) =
    some ([17, 255], 0x12) := by decide

/-- V-CO-8: HLT in the last cell. -/
theorem test_hlt_at_top : look (step (stAt 0xFF [0x01#8])) (fun t => (t.halted, t.run, t.pc, t.fault)) =
    some (true, .halted, 0x100, none) := by decide

/-- V-FD-7 and V-FD-9: an operand past the top of memory, with ir already written. -/
theorem test_operand_past_top :
    look (step (stAt 0xFF [0x47#8])) (fun t => (t.ir, t.fault)) = some (0x47, some (.memoryBounds 256)) ∧
    look (step (stAt 0xFF [0x82#8])) (fun t => (t.ir, t.fault)) = some (0x82, some (.memoryBounds 256)) := by decide

/-- V-FD-3: an unknown opcode in the last cell is no bounds fault. -/
theorem test_unknown_at_top : look (step (stAt 0xFF [0xFF#8])) (fun t => (t.pc, t.fault)) =
    some (0xFF, some (.unknownOpcode 0xFF)) := by decide

/-- V-FD-15, V-FD-16, V-FD-18: register indices are checked first, first operand first. -/
theorem test_register_bounds :
    look (step (stAt 0x10 [0xA0#8, 9#8, 10#8])) (fun t => t.fault) = some (some (.registerBounds 9)) ∧
    look (step (stAt 0x10 [0xA3#8, 0#8, 8#8])) (fun t => t.fault) = some (some (.registerBounds 8)) ∧
    look (step ((stAt 0x10 [0x45#8, 8#8]).setSp 0)) (fun t => t.fault) = some (some (.registerBounds 8)) := by decide

/-- A table word is what the first step after reset runs (LDI R0,8 and PRN R0). -/
theorem test_first_step : step (State.reset.withFetchWord 24 0x080082) =
      exec (.ldi 0 8) ((State.reset.withFetchWord 24 0x080082).setIr 0x82) ∧
    look (step (State.reset.withFetchWord 24 0x080082)) (fun t => (t.reg 0, t.pc)) = some (8, 3) := by
  refine ⟨rfl, by decide⟩

/-- R265: from reset with nothing placed, the first cycle faults on the byte 0x00. -/
theorem test_empty_memory : look (step State.reset) (fun t => (t.pc, t.ir, t.run, t.fault)) =
    some (0, 0, .faulted, some (.unknownOpcode 0)) := by decide

/-! ## Witnesses: concrete values that meet the hypotheses of the statements -/

/-- HLT in the last cell: the window holds one byte. -/
theorem test_witness_StepRunsTheDecodedInstruction : (stAt 255 [0x01#8]).run = .running ∧
    (stAt 255 [0x01#8]).pc.toNat ≤ 255 ∧
    decode (fetchWindow { stAt 255 [0x01#8] with ir := (stAt 255 [0x01#8]).mem.read (stAt 255 [0x01#8]).pc.toNat }) =
      .ok .hlt := by decide

/-- LDI in the last three cells. -/
theorem test_witness_StepRunsTheEncodedInstruction : (stAt 253 [0x82#8, 0#8, 8#8]).run = .running ∧
    ∀ (k : Nat) (b : Byte), (encode (.ldi 0 8))[k]? = some b → (stAt 253 [0x82#8, 0#8, 8#8]).pc.toNat + k ≤ 255 ∧
      (stAt 253 [0x82#8, 0#8, 8#8]).mem.read ((stAt 253 [0x82#8, 0#8, 8#8]).pc.toNat + k) = b := by
  refine ⟨rfl, fun k b h => ?_⟩
  match k with
  | 0 => cases h; decide
  | 1 => cases h; decide
  | 2 => cases h; decide
  | k + 3 => exact absurd h (by simp [encode, Instr.operands])

theorem test_witness_FetchOutOfBounds :
    ((stAt 256 []).run = .running ∧ 255 < (stAt 256 []).pc.toNat) ∧
    ((stAt 255 [0x45#8]).run = .running ∧ (stAt 255 [0x45#8]).pc.toNat ≤ 255 ∧
      (stAt 255 [0x45#8]).mem.read (stAt 255 [0x45#8]).pc.toNat = (Instr.push 0).opcode ∧
      256 < (stAt 255 [0x45#8]).pc.toNat + (Instr.push 0).length) ∧
    ((stAt 254 [0xA0#8]).pc.toNat ≤ 255 ∧
      (stAt 254 [0xA0#8]).mem.read (stAt 254 [0xA0#8]).pc.toNat = (Instr.add 0 0).opcode ∧
      256 < (stAt 254 [0xA0#8]).pc.toNat + (Instr.add 0 0).length) := by decide

theorem test_witness_UnknownOpcodeFaultTaken : (stAt 255 []).run = .running ∧ (stAt 255 []).pc.toNat ≤ 255 ∧
    (stAt 255 []).mem.read (stAt 255 []).pc.toNat ∉ [0x01#8, 0x11#8, 0x45#8, 0x46#8, 0x47#8, 0x50#8, 0x54#8, 0x55#8,
      0x56#8, 0x69#8, 0x82#8, 0xA0#8, 0xA1#8, 0xA2#8, 0xA3#8, 0xA4#8, 0xA7#8, 0xA8#8, 0xAA#8, 0xAB#8, 0xAC#8,
      0xAD#8] := by decide

theorem test_witness_TerminalStatesTakeNoStep : { State.reset with run := .halted }.run = .halted ∧
    (State.reset.raise (.unknownOpcode 0)).run = .faulted := by decide

theorem test_witness_RunningStepsAreTotal : State.reset.run = .running := by decide

/-- LDI and HLT that end at 256, JEQ and JNE not taken. -/
theorem test_witness_PcAdvancesByLength :
    (∃ t, exec (.ldi 0 8) (stAt 253 []) = .next t ∧ t.run ≠ .faulted ∧ setsPcFlag (Instr.ldi 0 8).opcode = false) ∧
    (∃ t, exec .hlt (stAt 255 []) = .next t ∧ t.run ≠ .faulted ∧ setsPcFlag Instr.hlt.opcode = false) ∧
    (∃ t, exec (.jeq 7) (stAt 254 []) = .next t ∧ t.run ≠ .faulted ∧ (stAt 254 []).fl.getLsbD 0 = false) ∧
    (∃ t, exec (.jne 7) ((stAt 254 []).setFl 0b001) = .next t ∧ t.run ≠ .faulted ∧
      ((stAt 254 []).setFl 0b001).fl.getLsbD 0 = true) ∧
    (stAt 253 []).run = .running ∧ (stAt 255 []).run = .running ∧ (stAt 254 []).run = .running ∧
    (stAt 253 []).pc.toNat ≤ 255 ∧ (stAt 255 []).pc.toNat ≤ 255 ∧ (stAt 254 []).pc.toNat ≤ 255 :=
  ⟨⟨_, rfl, by decide, by decide⟩, ⟨_, rfl, by decide, by decide⟩, ⟨_, rfl, by decide, by decide⟩,
    ⟨_, rfl, by decide, by decide⟩, by decide, by decide, by decide, by decide, by decide, by decide⟩

theorem test_witness_MemReadInAndOutOfBounds : (0 ≤ (0 : Int) ∧ (0 : Int) ≤ 255) ∧ (0 ≤ (255 : Int) ∧ (255 : Int) ≤ 255) ∧
    ((-1 : Int) < 0 ∨ 255 < (-1 : Int)) ∧ ((256 : Int) < 0 ∨ 255 < (256 : Int)) := by decide

theorem test_witness_MemWriteSetsOneCell : Memory.wf (stAt 0x10 [1#8, 2#8]).mem = true ∧
    (0 ≤ (255 : Int) ∧ (255 : Int) ≤ 255) ∧ ((-1 : Int) < 0 ∨ 255 < (-1 : Int)) ∧
    ((256 : Int) < 0 ∨ 255 < (256 : Int)) := by decide

theorem test_witness_AddResult : State.reset.halted = false := by decide

theorem test_witness_SubResult : State.reset.halted = false := by decide

theorem test_witness_MulResult : State.reset.halted = false := by decide

theorem test_witness_BitwiseResults : State.reset.halted = false := by decide

theorem test_witness_NotResult : State.reset.halted = false := by decide

theorem test_witness_ShlResult : State.reset.halted = false := by decide

theorem test_witness_ShrResult : State.reset.halted = false := by decide

theorem test_witness_CmpResult : State.reset.halted = false := by decide

theorem test_witness_JmpResult : State.reset.halted = false := by decide

theorem test_witness_LdiResult : State.reset.halted = false := by decide

theorem test_witness_PrnResult : State.reset.halted = false := by decide

/-- The smallest and the largest divisor. -/
theorem test_witness_DivResult : (regs01 State.reset 0xFF 1).halted = false ∧
    ((regs01 State.reset 0xFF 1).reg 1).toNat ≠ 0 ∧ (regs01 State.reset 0xFF 0xFF).halted = false ∧
    ((regs01 State.reset 0xFF 0xFF).reg 1).toNat ≠ 0 := by decide

/-- The smallest and the largest divisor. -/
theorem test_witness_ModResult : (regs01 State.reset 0xFF 1).halted = false ∧
    ((regs01 State.reset 0xFF 1).reg 1).toNat ≠ 0 ∧ (regs01 State.reset 0xFF 0xFF).halted = false ∧
    ((regs01 State.reset 0xFF 0xFF).reg 1).toNat ≠ 0 := by decide

theorem test_witness_ZeroDivisorFaults : ((regs01 State.reset 7 0).reg 1).toNat = 0 := by decide

theorem test_witness_DivModIdentity : ((regs01 State.reset 0xFF 1).reg 1).toNat ≠ 0 := by decide

/-- Both clauses: EQUAL set and EQUAL clear. -/
theorem test_witness_JeqResult : (State.reset.setFl 0b001).halted = false ∧
    (State.reset.setFl 0b001).fl.getLsbD 0 = true ∧ (State.reset.setFl 0b110).halted = false ∧
    (State.reset.setFl 0b110).fl.getLsbD 0 = false := by decide

/-- Both clauses: EQUAL clear and EQUAL set. -/
theorem test_witness_JneResult : (State.reset.setFl 0b110).halted = false ∧
    (State.reset.setFl 0b110).fl.getLsbD 0 = false ∧ (State.reset.setFl 0b001).halted = false ∧
    (State.reset.setFl 0b001).fl.getLsbD 0 = true := by decide

/-- SP at its lowest value that a PUSH accepts, and at its highest. -/
theorem test_witness_PushResult : (State.reset.setSp 1).halted = false ∧ (State.reset.setSp 1).sp.toNat ≠ 0 ∧
    (State.reset.setSp 255).sp.toNat ≠ 0 := by decide

/-- SP at its highest value that a POP accepts; POP R7 with SP at 255 and a loadable byte below 255. -/
theorem test_witness_PopResult : (State.reset.setSp 254).halted = false ∧
    ((0 : Fin 8) ≠ 7 ∧ (State.reset.setSp 254).sp.toNat ≠ 255) ∧
    ((7 : Fin 8) = 7 ∧ (((State.reset.setSp 255).setCell 255 254).mem.read
      ((State.reset.setSp 255).setCell 255 254).sp.toNat).toNat ≠ 255) := by decide

/-- The last address a CALL can return from, with SP at its lowest accepted value. -/
theorem test_witness_CallResult : ((stAt 253 []).setSp 1).halted = false ∧ ((stAt 253 []).setSp 1).sp.toNat ≠ 0 ∧
    ((stAt 253 []).setSp 1).pc.toNat + 2 ≤ 255 := by decide

theorem test_witness_RetResult : (State.reset.setSp 254).halted = false ∧ (State.reset.setSp 254).sp.toNat ≠ 255 := by
  decide

/-- Every clause; the clauses with equal outcomes (SP at 255) may overlap, the others exclude each other. -/
theorem test_witness_StackFaults : (State.reset.setSp 0).sp.toNat = 0 ∧
    ((stAt 254 []).sp.toNat ≠ 0 ∧ 255 < (stAt 254 []).pc.toNat + 2) ∧
    ((State.reset.setSp 255).sp.toNat = 255 ∧ (6 : Fin 8) ≠ 7) ∧
    ((7 : Fin 8) = 7 ∧ ((State.reset.setCell 0xF4 255).mem.read (State.reset.setCell 0xF4 255).sp.toNat).toNat = 255) := by
  decide

/-- The three parts: PUSH and POP at the lowest SP, CALL at the last address with a later state that has its SP and
its stack byte, four registers with the lowest SP. -/
theorem test_witness_StackRoundTrips :
    (Memory.wf (State.reset.setSp 1).mem = true ∧ (State.reset.setSp 1).sp.toNat ≠ 0) ∧
    (Memory.wf (stAt 253 []).mem = true ∧ (stAt 253 []).sp.toNat ≠ 0 ∧ (stAt 253 []).pc.toNat + 2 ≤ 255) ∧
    (∃ t, exec (.call 0) (stAt 253 []) = .next t ∧ (t.setFl 0b111).sp = t.sp ∧
      (t.setFl 0b111).mem.read t.sp.toNat = t.mem.read t.sp.toNat) ∧
    (Memory.wf (State.reset.setSp 2).mem = true ∧ 2 ≤ (State.reset.setSp 2).sp.toNat ∧ (0 : Fin 8) ≠ 7 ∧
      (1 : Fin 8) ≠ 7 ∧ (2 : Fin 8) ≠ 7 ∧ (3 : Fin 8) ≠ 7 ∧ (2 : Fin 8) ≠ 3) :=
  ⟨by decide, by decide, ⟨_, rfl, rfl, rfl⟩, by decide⟩

/-- Program P8's push. -/
theorem test_witness_PushedByteIsFetchedNext : ∃ t u, Memory.wf ((stAt 6 [0x45#8, 0#8]).setSp 9).mem = true ∧
    ((stAt 6 [0x45#8, 0#8]).setSp 9).halted = false ∧ ((stAt 6 [0x45#8, 0#8]).setSp 9).run = .running ∧
    ((stAt 6 [0x45#8, 0#8]).setSp 9).sp.toNat ≠ 0 ∧
    (((stAt 6 [0x45#8, 0#8]).setSp 9).pc + 2).toNat + 1 = ((stAt 6 [0x45#8, 0#8]).setSp 9).sp.toNat ∧
    exec (.push (regByte 0)) ((stAt 6 [0x45#8, 0#8]).setSp 9) = .next t ∧ step t = .next u :=
  ⟨_, _, by decide, by decide, by decide, by decide, by decide, rfl, rfl⟩

theorem test_witness_RegisterBoundsTaken : Instr.push ∈ [Instr.push, .pop] ∧ 7 < (8#8 : Byte).toNat ∧
    7 < (255#8 : Byte).toNat ∧ (7#8 : Byte).toNat ≤ 7 := ⟨List.mem_cons_self, by decide, by decide, by decide⟩

theorem test_witness_UnsupportedAluNeverRaised : ∃ t, State.reset.fault ≠ some .unsupportedALUOperation ∧
    step State.reset = .next t := ⟨_, by decide, rfl⟩

theorem test_witness_FaultsArePrecise : ∃ t, State.reset.run = .running ∧ step State.reset = .next t ∧
    t.run = .faulted := ⟨_, rfl, rfl, rfl⟩

/-- A state that a step takes to the given fault. -/
def faultsBy (s : State) (f : CoreFault) : Prop :=
  s.run = .running ∧ ∃ t, step s = .next t ∧ t.run = .faulted ∧ t.fault = some f

/-- Every kind, and every place of RegisterBounds and MemoryBounds, with pc as high as the place allows: a one-register
instruction; LDI; the first and the second operand of two; the opcode fetch; a first and a second operand past the top;
SP at 0 in PUSH and in CALL; CALL's return address; RET; POP; POP R7. -/
theorem test_witness_FaultsHaveTheirReason :
    faultsBy (stAt 255 []) (.unknownOpcode 0) ∧
    faultsBy (stAt 253 [0xA3#8, 0#8, 1#8]) (.divideByZero 253) ∧
    faultsBy (stAt 253 [0xA4#8, 0#8, 1#8]) (.moduloByZero 253) ∧
    faultsBy (stAt 254 [0x45#8, 8#8]) (.registerBounds 8) ∧
    faultsBy (stAt 253 [0x82#8, 255#8, 9#8]) (.registerBounds 255) ∧
    faultsBy (stAt 253 [0xA0#8, 8#8, 9#8]) (.registerBounds 8) ∧
    faultsBy (stAt 253 [0xA7#8, 7#8, 8#8]) (.registerBounds 8) ∧
    faultsBy (stAt 258 []) (.memoryBounds 258) ∧
    faultsBy (stAt 255 [0x47#8]) (.memoryBounds 256) ∧
    faultsBy (stAt 254 [0x82#8, 0#8]) (.memoryBounds 256) ∧
    faultsBy ((stAt 254 [0x45#8, 7#8]).setSp 0) (.memoryBounds (-1)) ∧
    faultsBy ((stAt 254 [0x50#8, 7#8]).setSp 0) (.memoryBounds (-1)) ∧
    faultsBy ((stAt 254 [0x50#8, 7#8]).setSp 1) (.memoryBounds 256) ∧
    faultsBy ((stAt 200 [0x11#8]).setSp 255) (.memoryBounds 256) ∧
    faultsBy ((stAt 200 [0x46#8, 6#8]).setSp 255) (.memoryBounds 256) ∧
    faultsBy ((stAt 254 [0x46#8, 7#8]).setCell 0xF4 255) (.memoryBounds 256) :=
  ⟨⟨rfl, _, rfl, rfl, rfl⟩, ⟨rfl, _, rfl, rfl, rfl⟩, ⟨rfl, _, rfl, rfl, rfl⟩, ⟨rfl, _, rfl, rfl, rfl⟩,
    ⟨rfl, _, rfl, rfl, rfl⟩, ⟨rfl, _, rfl, rfl, rfl⟩, ⟨rfl, _, rfl, rfl, rfl⟩, ⟨rfl, _, rfl, rfl, rfl⟩,
    ⟨rfl, _, rfl, rfl, rfl⟩, ⟨rfl, _, rfl, rfl, rfl⟩, ⟨rfl, _, rfl, rfl, rfl⟩, ⟨rfl, _, rfl, rfl, rfl⟩,
    ⟨rfl, _, rfl, rfl, rfl⟩, ⟨rfl, _, rfl, rfl, rfl⟩, ⟨rfl, _, rfl, rfl, rfl⟩, ⟨rfl, _, rfl, rfl, rfl⟩⟩

/-- A state of the invariant with pc at the top of its range, flags set and memory listed, and its step. -/
theorem test_witness_StepKeepsInv : ∃ t, Inv Config.default ((stAt 258 []).setFl flGreater |>.setCell 3 9) ∧
    step ((stAt 258 []).setFl flGreater |>.setCell 3 9) = .next t :=
  ⟨_, { memory := rfl, pcRange := by decide, flags := .inr (.inr (.inr rfl)), haltedRun := by decide,
        faultedRun := by decide, record := fun f hf => by cases hf }, rfl⟩

/-- A HLT loaded at 0, and the state after it. -/
theorem test_witness_ReachableStatesMeetInv : ∃ s t, Reachable Config.default s ∧ step s = .next t ∧
    Reachable Config.default t ∧ t.run = .halted :=
  ⟨_, _, .boot (image := [0x01#8]) rfl, rfl, .step (.boot (image := [0x01#8]) rfl) rfl, rfl⟩

theorem test_witness_ResetValues : (0 : Fin 8) ≠ 7 ∧ (6 : Fin 8) ≠ 7 := by decide

/-- An image of exactly 256 bytes, and one byte more. -/
theorem test_witness_BootLoadsTheImage : (List.replicate 256 (0x01#8)).length ≤ 256 ∧
    (List.replicate 256 (0x01#8))[255]? = some 0x01#8 ∧ 256 < (List.replicate 257 (0x01#8)).length :=
  ⟨List.length_replicate.le, by rw [List.getElem?_replicate, if_pos (by decide)],
    (List.length_replicate (n := 257) (a := 0x01#8)).ge⟩

theorem test_witness_HostResetAndEndOfRun : { State.reset with run := .halted }.run = .halted ∧
    (State.reset.raise (.unknownOpcode 0)).run = .faulted ∧
    (State.reset.raise (.unknownOpcode 0)).fault = some (.unknownOpcode 0) ∧ State.reset.run = .running := by decide

/-- An instruction that is none of CMP, JEQ and JNE with other flags; JEQ with LESS_THAN and GREATER_THAN changed. -/
theorem test_witness_FlagWritersAndReaders :
    (∃ t, (∀ a b, Instr.ldi 0 8 ≠ .cmp a b) ∧ (∀ r, Instr.ldi 0 8 ≠ .jeq r) ∧ (∀ r, Instr.ldi 0 8 ≠ .jne r) ∧
      exec (.ldi 0 8) State.reset = .next t) ∧
    (∃ t, (∀ a b, Instr.jeq 0 ≠ .cmp a b) ∧ (0b110#3 : Flags).getLsbD 0 = State.reset.fl.getLsbD 0 ∧
      exec (.jeq 0) State.reset = .next t) :=
  ⟨⟨_, by simp, by simp, by simp, rfl⟩, ⟨_, by simp, by decide, rfl⟩⟩

theorem test_witness_HaltedOnlyByHlt :
    (∃ t, Instr.ldi 0 8 ≠ .hlt ∧ exec (.ldi 0 8) State.reset = .next t) ∧ (∃ t, exec .hlt State.reset = .next t) ∧
    (∃ t, (stAt 255 [0x01#8]).run = .running ∧ (stAt 255 [0x01#8]).halted = false ∧ step (stAt 255 [0x01#8]) = .next t ∧
      t.halted = true) :=
  ⟨⟨_, by simp, rfl⟩, ⟨_, rfl⟩, ⟨_, rfl, rfl, rfl, rfl⟩⟩

/-- The address below SP is 0xF3 for a PUSH at reset. -/
theorem test_witness_OnlyPushAndCallWriteMemory :
    (∃ t, (∀ r, Instr.pop 0 ≠ .push r) ∧ (∀ r, Instr.pop 0 ≠ .call r) ∧ exec (.pop 0) State.reset = .next t) ∧
    (∃ t, exec (.push 0) State.reset = .next t) ∧ (∃ t, exec (.call 0) State.reset = .next t) ∧
    0xF4 ≠ (State.reset.sp - 1#8).toNat ∧ 0xF2 ≠ (State.reset.sp - 1#8).toNat :=
  ⟨⟨_, by simp, by simp, rfl⟩, ⟨_, rfl⟩, ⟨_, rfl⟩, by decide, by decide⟩

theorem test_witness_OutputAppendOnly : (∃ t, step (stAt 254 [0x47#8, 7#8]) = .next t) ∧
    (∃ t, (∀ r, Instr.hlt ≠ .prn r) ∧ exec .hlt State.reset = .next t) := ⟨⟨_, rfl⟩, ⟨_, by simp, rfl⟩⟩

theorem test_witness_IrUnobservable : (stAt 255 []).run = .running ∧ (stAt 255 []).pc.toNat ≤ 255 := by decide

/-- Each form, and a form that takes a fault. -/
theorem test_witness_AluAndLdiFrame : State.reset.halted = false ∧ (∃ t, exec (.not 7) State.reset = .next t) ∧
    (∃ t, exec (.ldi 7 0) State.reset = .next t) ∧ (∃ t, exec (.shl 7 7) State.reset = .next t) ∧
    (∃ t, exec (.div 0 1) State.reset = .next t ∧ t.run = .faulted) :=
  ⟨rfl, ⟨_, rfl⟩, ⟨_, rfl⟩, ⟨_, rfl⟩, ⟨_, rfl, rfl⟩⟩

theorem test_witness_RegisterFreeFrame : State.reset.halted = false ∧ (∃ t, exec .hlt State.reset = .next t) ∧
    (∃ t, exec (.cmp 0 7) State.reset = .next t) ∧ (∃ t, exec (.jmp 7) State.reset = .next t) ∧
    (∃ t, exec (.jne 8) State.reset = .next t ∧ t.run = .faulted) :=
  ⟨rfl, ⟨_, rfl⟩, ⟨_, rfl⟩, ⟨_, rfl⟩, ⟨_, rfl, rfl⟩⟩

theorem test_witness_PushAndCallFrame : State.reset.halted = false ∧ (∃ t, exec (.push 7) State.reset = .next t) ∧
    (∃ t, exec (.call 7) State.reset = .next t) ∧
    (∃ t, exec (.push 0) (State.reset.setSp 0) = .next t ∧ t.run = .faulted) :=
  ⟨rfl, ⟨_, rfl⟩, ⟨_, rfl⟩, ⟨_, rfl, rfl⟩⟩

theorem test_witness_PopAndRetFrame : State.reset.halted = false ∧ (∃ t, exec (.pop 7) State.reset = .next t) ∧
    (∃ t, exec .ret State.reset = .next t) ∧
    (∃ t, exec .ret (State.reset.setSp 255) = .next t ∧ t.run = .faulted) :=
  ⟨rfl, ⟨_, rfl⟩, ⟨_, rfl⟩, ⟨_, rfl, rfl⟩⟩

end Sys2Proof.Tests
end

/-! The flags and the halted bit (spec/10_state.md R30, R31). -/

namespace Sys2Proof.Machine

/-! ## Other flags carried through a cycle -/

/-- What a handler hands back, with other flags in its state. -/
def Handled.setFl (h : Handled) (f : Flags) : Handled := { h with state := h.state.setFl f }

/-- Two binds over one first part differ by a map of the answer when their continuations do. -/
theorem Except.bind_eq_map_bind {ε α β γ : Type} {x : Except ε α} {g : α → Except ε β} {g' : α → Except ε γ}
    {h : β → γ} (hg : ∀ a, g' a = (g a).map h) : (x >>= g') = (x >>= g).map h := by
  cases x with
  | error e => rfl
  | ok a => exact hg a

theorem aluTwo_setFl (op : AluOp) (opa opb : Byte) (s : State) (f : Flags) :
    aluTwo op opa opb (s.setFl f) = (aluTwo op opa opb s).map (·.setFl f) :=
  Except.bind_eq_map_bind fun _ => Except.bind_eq_map_bind fun _ => Except.bind_eq_map_bind fun _ => rfl

theorem aluOne_setFl (op : AluOp) (opa : Byte) (s : State) (f : Flags) :
    aluOne op opa (s.setFl f) = (aluOne op opa s).map (·.setFl f) :=
  Except.bind_eq_map_bind fun _ => Except.bind_eq_map_bind fun _ => rfl

theorem jumpIf_setFl (taken : Bool) (opa : Byte) (s : State) (f : Flags) :
    jumpIf taken opa (s.setFl f) = (jumpIf taken opa s).map (·.setFl f) :=
  Except.bind_eq_map_bind fun _ => by cases taken <;> rfl

theorem handleLdi_setFl (opa opb : Byte) (s : State) (f : Flags) :
    handleLdi opa opb (s.setFl f) = (handleLdi opa opb s).map (·.setFl f) :=
  Except.bind_eq_map_bind fun _ => rfl

theorem handlePrn_setFl (opa : Byte) (s : State) (f : Flags) :
    handlePrn opa (s.setFl f) = (handlePrn opa s).map (·.setFl f) :=
  Except.bind_eq_map_bind fun _ => rfl

theorem handlePush_setFl (opa : Byte) (s : State) (f : Flags) :
    handlePush opa (s.setFl f) = (handlePush opa s).map (·.setFl f) :=
  Except.bind_eq_map_bind fun _ => Except.bind_eq_map_bind fun _ => by rw [memWrite_byte, memWrite_byte]; rfl

theorem handlePop_setFl (opa : Byte) (s : State) (f : Flags) :
    handlePop opa (s.setFl f) = (handlePop opa s).map (·.setFl f) :=
  Except.bind_eq_map_bind fun _ => Except.bind_eq_map_bind fun _ => Except.bind_eq_map_bind fun _ => rfl

theorem handleCall_setFl (opa : Byte) (s : State) (f : Flags) :
    handleCall opa (s.setFl f) = (handleCall opa s).map (·.setFl f) :=
  Except.bind_eq_map_bind fun _ => Except.bind_eq_map_bind fun _ => Except.bind_eq_map_bind fun _ => by
    rw [memWrite_byte, memWrite_byte]; rfl

theorem handleRet_setFl (s : State) (f : Flags) :
    handleRet (s.setFl f) = (handleRet s).map (·.setFl f) :=
  Except.bind_eq_map_bind fun _ => Except.bind_eq_map_bind fun _ => rfl

/-- A handler other than CMP's does the same under other flags and carries them along; for JEQ and JNE the
two flag fields have to agree in EQUAL. -/
theorem handlerOf_setFl {i : Instr} {s : State} {f : Flags} (hcmp : ∀ a b, i ≠ .cmp a b)
    (heq : ∀ r, i = .jeq r ∨ i = .jne r → (s.setFl f).equalFlag = s.equalFlag) :
    handlerOf i (s.setFl f) = (handlerOf i s).map (·.setFl f) := by
  cases i with
  | hlt => rfl
  | ret => exact handleRet_setFl s f
  | push r => exact handlePush_setFl r s f
  | pop r => exact handlePop_setFl r s f
  | prn r => exact handlePrn_setFl r s f
  | call r => exact handleCall_setFl r s f
  | jmp r => exact jumpIf_setFl true r s f
  | jeq r => rw [handlerOf, heq r (.inl rfl)]; exact jumpIf_setFl _ r s f
  | jne r => rw [handlerOf, heq r (.inr rfl)]; exact jumpIf_setFl _ r s f
  | not a => exact aluOne_setFl .not a s f
  | ldi r v => exact handleLdi_setFl r v s f
  | cmp a b => exact absurd rfl (hcmp a b)
  | add a b | sub a b | mul a b | div a b | mod a b | and a b | or a b | xor a b | shl a b | shr a b =>
    exact aluTwo_setFl _ a b s f

theorem advance_setFl (len : Nat) (h : Handled) (f : Flags) :
    advance len (h.setFl f) = (advance len h).setFl f := by
  obtain ⟨u, pcWasSet⟩ := h
  cases pcWasSet <;> rfl

theorem haltCheck_setFl (s : State) (f : Flags) : haltCheck (s.setFl f) = (haltCheck s).setFl f := by
  rw [haltCheck, haltCheck, State.setFl_halted]
  split <;> rfl

/-- An instruction other than CMP, run under other flags, gives the same next state but for those flags; for
JEQ and JNE the two flag fields have to agree in EQUAL. -/
theorem exec_setFl {i : Instr} {s t : State} {f : Flags} (hcmp : ∀ a b, i ≠ .cmp a b)
    (heq : ∀ r, i = .jeq r ∨ i = .jne r → (s.setFl f).equalFlag = s.equalFlag) (h : exec i s = .next t) :
    exec i (s.setFl f) = .next (t.setFl f) := by
  have hmap := handlerOf_setFl hcmp heq
  rcases exec_next_inv h with ⟨e, he, rfl⟩ | ⟨r, hr, rfl⟩
  · rw [he] at hmap
    exact exec_of_error hmap
  · rw [hr] at hmap
    rw [exec_of_ok hmap, advance_setFl, haltCheck_setFl]

/-- An instruction other than CMP leaves the flags: the state run is the state with its own flags put in, and
these are carried along. -/
theorem exec_fl {i : Instr} {s t : State} (hcmp : ∀ a b, i ≠ .cmp a b) (h : exec i s = .next t) : t.fl = s.fl := by
  have hself : exec i s = .next (t.setFl s.fl) := exec_setFl (f := s.fl) hcmp (fun _ _ => rfl) h
  have ht : t = t.setFl s.fl := by simpa [h] using hself
  rw [ht, State.setFl_fl]

/-- CMP of legal operands does not read the flags it overwrites. -/
theorem exec_cmp_setFl (s : State) (a b : Fin 8) (f : Flags) :
    exec (.cmp (regByte a) (regByte b)) (s.setFl f) = exec (.cmp (regByte a) (regByte b)) s := by
  have hc : ∀ u, handlerOf (.cmp (regByte a) (regByte b)) u =
      .ok ⟨u.setFl (compareFlags (u.reg a) (u.reg b)), false⟩ := handleCmp_legal a b
  rw [exec_of_ok (hc s), exec_of_ok (hc (s.setFl f))]; rfl

/-- Settles O50: every handler but CMP's commutes with a change of the flags, JEQ's and JNE's where EQUAL is
kept. -/
theorem flagWritersAndReaders : Obligations.FlagWritersAndReaders := by
  refine ⟨fun i s t => exec_fl, exec_cmp_setFl, ?_, ?_⟩
  · intro i s t f hcmp hbit h
    exact exec_setFl hcmp (fun _ _ => hbit) h
  · intro i s t f hcmp hjeq hjne h
    exact exec_setFl hcmp (fun r hr => absurd hr (by simp [hjeq, hjne])) h

/-! ## The halted bit -/

/-- No handler but HLT's writes the halted bit. -/
theorem handlerOf_halted {i : Instr} {s : State} {r : Handled} (hi : i ≠ .hlt) (h : handlerOf i s = .ok r) :
    r.state.halted = s.halted := by
  cases i with
  | hlt => exact absurd rfl hi
  | ret => obtain ⟨-, rfl⟩ := handleRet_ok h; rfl
  | push r => obtain ⟨_, -, -, rfl⟩ := handlePush_ok h; rfl
  | pop r => obtain ⟨_, -, -, rfl⟩ := handlePop_ok h; rfl
  | prn r => obtain ⟨_, -, rfl⟩ := handlePrn_ok h; rfl
  | call r => obtain ⟨_, -, -, -, rfl⟩ := handleCall_ok h; rfl
  | jmp r | jeq r | jne r => obtain ⟨_, -, rfl⟩ := jumpIf_ok h; split <;> rfl
  | not a => obtain ⟨_, _, -, -, rfl⟩ := aluOne_ok h; rfl
  | ldi r v => obtain ⟨_, -, rfl⟩ := handleLdi_ok h; rfl
  | cmp a b => obtain ⟨_, _, -, -, rfl⟩ := handleCmp_ok h; rfl
  | add a b | sub a b | mul a b | div a b | mod a b | and a b | or a b | xor a b | shl a b | shr a b =>
    obtain ⟨_, _, _, -, -, -, rfl⟩ := aluTwo_ok h; rfl

/-- The rest of a cycle keeps the halted bit a handler leaves. -/
theorem haltCheck_advance_halted (len : Nat) (r : Handled) : (haltCheck (advance len r)).halted = r.state.halted := by
  obtain ⟨-, -, -, -, -, hc, -⟩ := haltCheck_frame (advance len r)
  obtain ⟨-, -, -, -, ha, -⟩ := advance_frame len r
  rw [hc, ha]

/-- The halt check leaves no state with the halted bit set in another run state. -/
theorem haltCheck_run_of_halted {s : State} (h : (haltCheck s).halted = true) : (haltCheck s).run = .halted := by
  obtain ⟨-, -, -, -, -, hh, -, -, hr⟩ := haltCheck_frame s
  rw [hr, if_pos (hh ▸ h)]

theorem exec_halted {i : Instr} {s t : State} (hi : i ≠ .hlt) (h : exec i s = .next t) : t.halted = s.halted := by
  rcases exec_next_inv h with ⟨f, -, rfl⟩ | ⟨r, hr, rfl⟩
  · rfl
  · rw [haltCheck_advance_halted, handlerOf_halted hi hr]

/-- HLT raises nothing, and its handler sets the halted bit. -/
theorem exec_hlt_halted {s t : State} (h : exec .hlt s = .next t) : t.halted = true := by
  rcases exec_next_inv h with ⟨f, hf, -⟩ | ⟨r, hr, rfl⟩
  · cases hf
  · cases hr
    exact haltCheck_advance_halted _ _

/-- An instruction that makes the halted bit true has completed, so its halt check ended the run. -/
theorem exec_run_of_halted {i : Instr} {s t : State} (hs : s.halted = false) (h : exec i s = .next t)
    (ht : t.halted = true) : t.run = .halted := by
  rcases exec_next_inv h with ⟨f, -, rfl⟩ | ⟨r, -, rfl⟩
  · rw [State.raise_halted, hs] at ht; cases ht
  · exact haltCheck_run_of_halted ht

/-- A step that makes the halted bit true ends the run: a fault of the fetch leaves the bit. -/
theorem step_run_of_halted {s t : State} (hs : s.halted = false) (h : step s = .next t) (ht : t.halted = true) :
    t.run = .halted := by
  obtain ⟨-, ⟨-, rfl⟩ | ⟨-, e, -, rfl⟩ | ⟨-, i, -, hx⟩⟩ := step_next_inv h
  · rw [State.raise_halted, hs] at ht; cases ht
  · rw [State.raise_halted, State.setIr_halted, hs] at ht; cases ht
  · exact exec_run_of_halted (by rwa [State.setIr_halted]) hx ht

/-- Settles O51: HLT's is the one handler that writes the halted bit, and the halt check that follows it leaves a
run state from which no cycle starts. -/
theorem haltedOnlyByHlt : Obligations.HaltedOnlyByHlt := by
  refine ⟨fun _ => rfl, fun _ _ _ => exec_halted, fun _ _ => exec_hlt_halted, ?_⟩
  intro s t _ hs h ht
  have hrun : t.run = .halted := step_run_of_halted hs h ht
  refine ⟨hrun, fun u hu => ?_⟩
  rw [running_of_step hu] at hrun
  cases hrun

end Sys2Proof.Machine

/-! The memory primitives (spec/20_memory.md R51). -/

namespace Sys2Proof.Machine

/-- `MemRead` at any integer outside 0..255, a negative one included. -/
theorem memRead_outside (s : State) {addr : Int} (h : addr < 0 ∨ 255 < addr) :
    s.memRead addr = .error (.memoryBounds addr) := by
  rw [State.memRead, if_neg (by omega)]

/-- Settles O12: an address of 0..255 is a natural number, which `memRead_inside` reads; any other is
outside. -/
theorem memReadInAndOutOfBounds : Obligations.MemReadInAndOutOfBounds := by
  refine fun s addr => ⟨fun hlow hhigh => ?_, memRead_outside s⟩
  obtain ⟨a, rfl⟩ := Int.eq_ofNat_of_zero_le hlow
  rw [Int.toNat_natCast]
  exact memRead_inside s (by omega)

end Sys2Proof.Machine

/-! The stack instructions one after another (spec/41_stack_subroutine.md R141 to R144, R146). -/

namespace Sys2Proof.Machine

theorem byte_sub_one_toNat {b : Byte} (h : b.toNat ≠ 0) : (b - 1#8).toNat = b.toNat - 1 := by
  have : 1 ≤ b.toNat := by omega
  rw [BitVec.toNat_sub_of_le (by rwa [BitVec.le_def])]; rfl

theorem byte_sub_one_ne_top {b : Byte} (h : b.toNat ≠ 0) : (b - 1#8).toNat ≠ 255 := by
  have := b.isLt
  rw [byte_sub_one_toNat h]; omega

theorem State.sp_setSp (s : State) (v : Byte) : (s.setSp v).sp = v := by
  rw [State.setSp, State.sp_setReg, if_pos rfl]

theorem State.reg_setSp_of_ne (s : State) (v : Byte) {j : Fin 8} (h : j ≠ 7) : (s.setSp v).reg j = s.reg j := by
  rw [State.setSp, State.reg_setReg, if_neg h]

/-- The memory, the registers and an assigned pc that a completed handler hands back are those of the next state,
whatever the halted bit. -/
theorem exec_next_of_ok {i : Instr} {s : State} {r : Handled} (h : handlerOf i s = .ok r) :
    ∃ t, exec i s = .next t ∧ t.mem = r.state.mem ∧ (∀ j, t.reg j = r.state.reg j) ∧
      (r.pcWasSet = true → t.pc = r.state.pc) := by
  obtain ⟨hmem, hx, hpc, -⟩ := haltCheck_frame (advance i.length r)
  obtain ⟨amem, ax, -, -, -, -, -, -, apc⟩ := advance_frame i.length r
  refine ⟨_, exec_of_ok h, hmem.trans amem, State.reg_congr (hx.trans ax), fun hset => ?_⟩
  rw [hpc, apc, if_pos hset]

/-- PUSH stores at the decremented SP; of the registers only SP changes. -/
theorem exec_push_next {s : State} (r : Fin 8) (h : s.sp.toNat ≠ 0) :
    ∃ t, exec (.push (regByte r)) s = .next t ∧
      t.mem = s.mem.write (s.sp - 1#8).toNat (regAfterDecrement s r (s.sp - 1#8)) ∧
      t.sp = s.sp - 1#8 ∧ ∀ j ≠ 7, t.reg j = s.reg j := by
  obtain ⟨t, ht, hmem, hreg, -⟩ := exec_next_of_ok (i := .push (regByte r)) (handlePush_legal r h)
  exact ⟨t, ht, hmem, (hreg 7).trans (State.sp_setSp _ _),
    fun j hj => (hreg j).trans (State.reg_setSp_of_ne _ _ hj)⟩

/-- POP writes its register from the byte at SP, then SP, which for `r = 7` counts up from that byte; memory stays. -/
theorem exec_pop_next {s : State} (r : Fin 8)
    (h : (if r = 7 then s.mem.read s.sp.toNat else s.sp).toNat ≠ 255) :
    ∃ t, exec (.pop (regByte r)) s = .next t ∧ t.mem = s.mem ∧
      t.sp = (if r = 7 then s.mem.read s.sp.toNat else s.sp) + 1#8 ∧
      ∀ j ≠ 7, t.reg j = if j = r then s.mem.read s.sp.toNat else s.reg j := by
  obtain ⟨t, ht, hmem, hreg, -⟩ := exec_next_of_ok (i := .pop (regByte r)) (handlePop_legal r h)
  refine ⟨t, ht, hmem, (hreg 7).trans (State.sp_setSp _ _), fun j hj => ?_⟩
  rw [hreg j, State.reg_setSp_of_ne _ _ hj, State.reg_setReg]

/-- CALL stores its return address at the decremented SP. -/
theorem exec_call_next {s : State} (r : Fin 8) (h : s.sp.toNat ≠ 0) (hp : s.pc.toNat + 2 ≤ 255) :
    ∃ t, exec (.call (regByte r)) s = .next t ∧
      t.mem = s.mem.write (s.sp - 1#8).toNat (BitVec.ofNat 8 (s.pc.toNat + 2)) ∧ t.sp = s.sp - 1#8 := by
  obtain ⟨t, ht, hmem, hreg, -⟩ := exec_next_of_ok (i := .call (regByte r)) (handleCall_legal r h hp)
  exact ⟨t, ht, hmem, (hreg 7).trans (State.sp_setSp _ _)⟩

/-- RET goes to the byte at SP. -/
theorem exec_ret_next {s : State} (h : s.sp.toNat ≠ 255) :
    ∃ t, exec .ret s = .next t ∧ t.pc.toNat = (s.mem.read s.sp.toNat).toNat ∧ t.sp = s.sp + 1#8 := by
  obtain ⟨t, ht, -, hreg, hpc⟩ := exec_next_of_ok (i := .ret) (handleRet_legal h)
  refine ⟨t, ht, ?_, (hreg 7).trans (State.sp_setSp _ _)⟩
  rw [hpc rfl]
  exact BitVec.toNat_setWidth_of_le (by decide)

/-- A byte written at an address is read there. -/
theorem Memory.read_write_same {m : Memory} (h : m.wf = true) (a : Nat) (v : Byte) : (m.write a v).read a = v := by
  rw [Memory.read_write h, if_pos rfl]

/-- PUSH then POP of one register, R7 included: what POP R7 counts up from is the decremented SP that PUSH R7 stored. -/
theorem push_pop_restores {s : State} (r : Fin 8) (hm : s.mem.wf = true) (h : s.sp.toNat ≠ 0) :
    ∃ t u, exec (.push (regByte r)) s = .next t ∧ exec (.pop (regByte r)) t = .next u ∧
      u.reg r = s.reg r ∧ u.sp = s.sp ∧
      u.mem.read (s.sp.toNat - 1) = if r = 7 then s.sp - 1#8 else s.reg r := by
  obtain ⟨t, ht, tmem, tsp, -⟩ := exec_push_next r h
  have hcell : t.mem.read t.sp.toNat = if r = 7 then s.sp - 1#8 else s.reg r := by
    rw [tmem, tsp, Memory.read_write_same hm]; rfl
  have hbase : (if r = 7 then t.mem.read t.sp.toNat else t.sp) = s.sp - 1#8 := by
    rw [hcell, tsp]; split <;> rfl
  obtain ⟨u, hu, umem, usp, ureg⟩ := exec_pop_next (s := t) r (hbase ▸ byte_sub_one_ne_top h)
  have hsp : u.sp = s.sp := by rw [usp, hbase, BitVec.sub_add_cancel]
  refine ⟨t, u, ht, hu, ?_, hsp, ?_⟩
  · by_cases hr : r = 7
    · subst hr; exact hsp
    · rw [ureg r hr, if_pos rfl, hcell, if_neg hr]
  · rw [umem, ← byte_sub_one_toNat h, ← hcell, tsp]

/-- RET from any state with the SP and the stack byte that a CALL left. -/
theorem call_ret_returns {s : State} (r : Fin 8) (hm : s.mem.wf = true) (h : s.sp.toNat ≠ 0)
    (hp : s.pc.toNat + 2 ≤ 255) :
    ∃ t, exec (.call (regByte r)) s = .next t ∧
      ∀ u : State, u.sp = t.sp → u.mem.read t.sp.toNat = t.mem.read t.sp.toNat →
        ∃ w, exec .ret u = .next w ∧ w.pc.toNat = s.pc.toNat + 2 ∧ w.sp = s.sp := by
  obtain ⟨t, ht, tmem, tsp⟩ := exec_call_next r h hp
  refine ⟨t, ht, fun u usp ucell => ?_⟩
  obtain ⟨w, hw, wpc, wsp⟩ := exec_ret_next (s := u) (by rw [usp, tsp]; exact byte_sub_one_ne_top h)
  refine ⟨w, hw, ?_, by rw [wsp, usp, tsp, BitVec.sub_add_cancel]⟩
  rw [wpc, usp, ucell, tmem, tsp, Memory.read_write_same hm, BitVec.toNat_ofNat, Nat.mod_eq_of_lt (by omega)]

/-- Last in, first out: the second PUSH goes to another cell than the first, and each POP reads the cell at its SP. -/
theorem push_push_pop_pop_reverses {s : State} {a b c d : Fin 8} (hm : s.mem.wf = true) (h : 2 ≤ s.sp.toNat)
    (ha : a ≠ 7) (hb : b ≠ 7) (hc : c ≠ 7) (hd : d ≠ 7) (hcd : c ≠ d) :
    ∃ t u v w, exec (.push (regByte a)) s = .next t ∧ exec (.push (regByte b)) t = .next u ∧
      exec (.pop (regByte c)) u = .next v ∧ exec (.pop (regByte d)) v = .next w ∧
      w.reg c = s.reg b ∧ w.reg d = s.reg a ∧ w.sp = s.sp := by
  have hs : s.sp.toNat ≠ 0 := by omega
  obtain ⟨t, ht, tmem, tsp, treg⟩ := exec_push_next a hs
  have tsp' : t.sp.toNat = s.sp.toNat - 1 := by rw [tsp, byte_sub_one_toNat hs]
  have ht0 : t.sp.toNat ≠ 0 := by omega
  obtain ⟨u, hu, umem, usp, -⟩ := exec_push_next (s := t) b ht0
  have hne : t.sp.toNat ≠ (t.sp - 1#8).toNat := by rw [byte_sub_one_toNat ht0]; omega
  have twf : t.mem.wf = true := tmem ▸ Memory.wf_write hm (BitVec.isLt _) _
  have first : u.mem.read t.sp.toNat = s.reg a := by
    rw [umem, Memory.read_write_other _ _ hne, tmem, tsp, Memory.read_write_same hm]
    exact if_neg ha
  have second : u.mem.read u.sp.toNat = s.reg b := by
    rw [umem, usp, Memory.read_write_same twf, ← treg b hb]
    exact if_neg hb
  obtain ⟨v, hv, vmem, vsp, vreg⟩ := exec_pop_next (s := u) c
    (by rw [if_neg hc, usp]; exact byte_sub_one_ne_top ht0)
  rw [if_neg hc, usp, BitVec.sub_add_cancel] at vsp
  obtain ⟨w, hw, -, wsp, wreg⟩ := exec_pop_next (s := v) d
    (by rw [if_neg hd, vsp, tsp]; exact byte_sub_one_ne_top hs)
  refine ⟨t, u, v, w, ht, hu, hv, hw, ?_, ?_, ?_⟩
  · rw [wreg c hc, if_neg hcd, vreg c hc, if_pos rfl, second]
  · rw [wreg d hd, if_pos rfl, vmem, vsp, first]
  · rw [wsp, if_neg hd, vsp, tsp, BitVec.sub_add_cancel]

/-- Settles O38, one lemma for each of the three properties of R146. -/
theorem stackRoundTrips : Obligations.StackRoundTrips :=
  ⟨fun _ r => push_pop_restores r, fun _ r => call_ret_returns r, fun _ _ _ _ _ => push_push_pop_pop_reverses⟩

end Sys2Proof.Machine

/-! CMP one way and the other (spec/42_compare_branch.md R160, R165). -/

namespace Sys2Proof.Machine

/-! ## The comparison, by the order of the two values -/

theorem compareFlags_of_gt {p q : Byte} (h : q.toNat < p.toNat) : compareFlags p q = flGreater := if_pos h

theorem compareFlags_of_lt {p q : Byte} (h : p.toNat < q.toNat) : compareFlags p q = flLess := by
  rw [compareFlags, if_neg (by omega), if_pos h]

theorem compareFlags_of_eq {p q : Byte} (h : p.toNat = q.toNat) : compareFlags p q = flEqual := by
  rw [compareFlags, if_neg (by omega), if_neg (by omega)]

/-- One order of the two values is the other read backwards, so each flag of one comparison goes with one flag of
the other. -/
theorem compareFlags_oneHot_and_swap (p q : Byte) :
    (compareFlags p q = flEqual ∨ compareFlags p q = flLess ∨ compareFlags p q = flGreater) ∧
    (compareFlags p q = flGreater ↔ compareFlags q p = flLess) ∧
    (compareFlags p q = flLess ↔ compareFlags q p = flGreater) ∧
    (compareFlags p q = flEqual ↔ compareFlags q p = flEqual) := by
  rcases Nat.lt_trichotomy p.toNat q.toNat with h | h | h
  · rw [compareFlags_of_lt h, compareFlags_of_gt h]; decide
  · rw [compareFlags_of_eq h, compareFlags_of_eq h.symm]; decide
  · rw [compareFlags_of_gt h, compareFlags_of_lt h]; decide

/-! ## The instruction -/

/-- The rest of a cycle keeps the flags a handler leaves. -/
theorem haltCheck_advance_fl (len : Nat) (r : Handled) : (haltCheck (advance len r)).fl = r.state.fl := by
  obtain ⟨-, -, -, -, hc, -⟩ := haltCheck_frame (advance len r)
  obtain ⟨-, -, -, ha, -⟩ := advance_frame len r
  rw [hc, ha]

/-- CMP of legal operands completes in every state, one with the halted bit set included. It writes the comparison
and keeps the registers, so that a second CMP meets the same values. -/
theorem exec_cmp_next (s : State) (a b : Fin 8) :
    ∃ t, exec (.cmp (regByte a) (regByte b)) s = .next t ∧ t.fl = compareFlags (s.reg a) (s.reg b) ∧
      ∀ j, t.reg j = s.reg j := by
  have hok : handlerOf (.cmp (regByte a) (regByte b)) s =
      .ok ⟨s.setFl (compareFlags (s.reg a) (s.reg b)), false⟩ := handleCmp_legal a b s
  obtain ⟨t, ht, -, hreg, -⟩ := exec_next_of_ok hok
  refine ⟨t, ht, ?_, hreg⟩
  cases (exec_of_ok hok).symm.trans ht
  exact haltCheck_advance_fl _ _

/-- Settles O26: the second CMP compares the first one's two values the other way round. -/
theorem cmpAntisymmetricTotal : Obligations.CmpAntisymmetricTotal := by
  intro s a b
  obtain ⟨t, ht, tfl, treg⟩ := exec_cmp_next s a b
  obtain ⟨u, hu, ufl, -⟩ := exec_cmp_next t b a
  rw [treg, treg] at ufl
  refine ⟨t, u, ht, hu, ?_⟩
  rw [tfl, ufl]
  exact compareFlags_oneHot_and_swap _ _

end Sys2Proof.Machine

/-! Where the fault record of a next state comes from (spec/60_exceptions.md R222). -/

namespace Sys2Proof.Machine

/-- A failed decode or operand fetch is an unknown opcode or an address outside memory. -/
theorem decodeFault_ne_unsupportedALUOperation (p : Pc) (e : DecodeError) :
    decodeFault p e ≠ .unsupportedALUOperation := by
  cases e with
  | noOpcode | unknownOpcode _ | missingOperand _ => nofun

/-- No condition of any instruction raises UnsupportedALUOperation. -/
theorem not_raised_unsupportedALUOperation (i : Instr) (s : State) : ¬ Raised i s .unsupportedALUOperation := nofun

/-- The rest of a cycle keeps the fault record a handler leaves. -/
theorem haltCheck_advance_fault (len : Nat) (r : Handled) : (haltCheck (advance len r)).fault = r.state.fault := by
  obtain ⟨-, -, -, -, -, -, hc, -⟩ := haltCheck_frame (advance len r)
  obtain ⟨-, -, -, -, -, -, ha, -⟩ := advance_frame len r
  rw [hc, ha]

/-- An instruction keeps the record or writes into it a fault whose condition the state it started in meets. -/
theorem exec_fault_cases {i : Instr} {s t : State} (h : exec i s = .next t) :
    t.fault = s.fault ∨ ∃ f, Raised i s f ∧ t.fault = some f := by
  rcases exec_next_inv h with ⟨f, hf, rfl⟩ | ⟨r, hr, rfl⟩
  · exact .inr ⟨f, handlerOf_error hf, rfl⟩
  · obtain ⟨-, -, hkeep⟩ := handlerOf_keeps hr
    exact .inl ((haltCheck_advance_fault _ _).trans hkeep)

/-- A step keeps the record or writes into it a fault of the opcode fetch, of the decoder, or of an instruction. -/
theorem step_fault_cases {s t : State} (h : step s = .next t) :
    t.fault = s.fault ∨ t.fault = some (.memoryBounds s.pc.toNat) ∨ (∃ e, t.fault = some (decodeFault s.pc e)) ∨
    ∃ i f, Raised i (s.setIr (s.mem.read s.pc.toNat)) f ∧ t.fault = some f := by
  obtain ⟨-, ⟨-, rfl⟩ | ⟨-, e, -, rfl⟩ | ⟨-, i, -, hx⟩⟩ := step_next_inv h
  · exact .inr (.inl rfl)
  · exact .inr (.inr (.inl ⟨e, rfl⟩))
  · rcases exec_fault_cases hx with hkeep | hraised
    · exact .inl hkeep
    · exact .inr (.inr (.inr ⟨i, hraised⟩))

/-- Settles O41: a step keeps the record or writes a fault from one of three places, and none of them raises
UnsupportedALUOperation. -/
theorem unsupportedAluNeverRaised : Obligations.UnsupportedAluNeverRaised := by
  refine ⟨fun s t hs h ht => ?_, rfl⟩
  rcases step_fault_cases h with hkeep | hfetch | ⟨e, hdecode⟩ | ⟨i, f, hraised, hf⟩
  · exact hs (hkeep.symm.trans ht)
  · cases hfetch.symm.trans ht
  · exact decodeFault_ne_unsupportedALUOperation _ e (Option.some.inj (hdecode.symm.trans ht))
  · cases hf.symm.trans ht
    exact not_raised_unsupportedALUOperation _ _ hraised

end Sys2Proof.Machine

/-! The decoder against the encoder (spec/30_encoding.md R80 to R91). -/

namespace Sys2Proof

/-! ## Rows of the opcode map -/

/-- A row of the opcode map gives its opcode byte and its operand bytes back when what it builds is encoded. -/
def Shape.EncodesAs (b : Byte) : Shape → Prop
  | .z i => encode i = [b]
  | .r f => ∀ a, encode (f a) = [b, a]
  | .rr f => ∀ a c, encode (f a c) = [b, a, c]
  | .ri f => ∀ a c, encode (f a c) = [b, a, c]

theorem opcodeTable_encodesAs : ∀ p ∈ opcodeTable, p.2.EncodesAs p.1 := by
  simp [opcodeTable, Shape.EncodesAs, encode, Instr.opcode, Instr.operands]

theorem encodesAs_of_shapeOf {b : Byte} {sh : Shape} (h : shapeOf b = some sh) : sh.EncodesAs b :=
  opcodeTable_encodesAs _ (mem_of_shapeOf h)

theorem findRow_eq_none_iff {l : List (Byte × Shape)} {b : Byte} : findRow l b = none ↔ b ∉ l.map Prod.fst := by
  induction l with
  | nil => simp [findRow]
  | cons p l ih =>
    by_cases hb : p.1 = b
    · simp [findRow, hb]
    · simp [findRow, hb, ih, Ne.symm hb]

/-! ## Decoding an encoding, and encoding what was decoded -/

/-- No byte after an encoding matters. -/
theorem decode_encode_append (i : Instr) (rest : List Byte) : decode (encode i ++ rest) = .ok i := by
  cases i <;> rfl

/-- Operands taken for a row are those its encoding has after the opcode. -/
theorem encode_prefix_of_takeOperands {sh : Shape} {b : Byte} {rest : List Byte} {i : Instr} (hsh : sh.EncodesAs b)
    (h : takeOperands sh rest = .ok i) : encode i <+: b :: rest := by
  match sh, rest with
  | .z _, rest => cases h; rw [hsh]; exact ⟨rest, rfl⟩
  | .r _, a :: rest => cases h; rw [hsh]; exact ⟨rest, rfl⟩
  | .rr _, a :: c :: rest => cases h; rw [hsh]; exact ⟨rest, rfl⟩
  | .ri _, a :: c :: rest => cases h; rw [hsh]; exact ⟨rest, rfl⟩

theorem decode_eq_ok_iff (bs : List Byte) (i : Instr) : decode bs = .ok i ↔ encode i <+: bs := by
  constructor
  · intro h
    cases bs with
    | nil => cases h
    | cons b rest =>
      cases hsh : shapeOf b with
      | none => rw [decode_cons_of_none hsh] at h; cases h
      | some sh =>
        rw [decode_cons_of_some hsh] at h
        exact encode_prefix_of_takeOperands (encodesAs_of_shapeOf hsh) h
  · rintro ⟨rest, rfl⟩
    exact decode_encode_append i rest

/-- Settles O1: the encoding of what a row builds is read off the opcode map, row by row. -/
theorem decodeExactlyTheEncodings : Obligations.DecodeExactlyTheEncodings := decode_eq_ok_iff

/-! ## The two ways a decode of a first byte fails -/

/-- The opcode byte is the first byte of an encoding, and `len`, read from that byte, counts its bytes. -/
theorem opcode_length_of_encode {i : Instr} {b : Byte} {ops : List Byte} (h : encode i = b :: ops) :
    i.opcode = b ∧ i.length = ops.length + 1 := by
  obtain ⟨rfl, rfl⟩ := List.cons.inj h
  exact ⟨rfl, by cases i <;> simp [Instr.operands]⟩

/-- A known opcode fails only by the first operand byte that is not there. -/
theorem takeOperands_error {sh : Shape} {b : Byte} {rest : List Byte} {e : DecodeError} (hsh : sh.EncodesAs b)
    (h : takeOperands sh rest = .error e) :
    ∃ i : Instr, i.opcode = b ∧ rest.length + 1 < i.length ∧ e = .missingOperand (rest.length + 1) := by
  have known : ∀ {i : Instr} {ops : List Byte}, encode i = b :: ops → rest.length < ops.length →
      e = .missingOperand (rest.length + 1) →
      ∃ i : Instr, i.opcode = b ∧ rest.length + 1 < i.length ∧ e = .missingOperand (rest.length + 1) := by
    intro i ops hi hlt he
    obtain ⟨hop, hlen⟩ := opcode_length_of_encode hi
    exact ⟨i, hop, by omega, he⟩
  match sh, rest with
  | .r _, [] => cases h; exact known (hsh 0) (by decide) rfl
  | .rr _, [] | .ri _, [] => cases h; exact known (hsh 0 0) Nat.zero_lt_two rfl
  | .rr _, [_] | .ri _, [_] => cases h; exact known (hsh 0 0) Nat.one_lt_two rfl

theorem decode_error_cases {b : Byte} {rest : List Byte} {e : DecodeError} (h : decode (b :: rest) = .error e) :
    (shapeOf b = none ∧ e = .unknownOpcode b) ∨
    ∃ i : Instr, i.opcode = b ∧ rest.length + 1 < i.length ∧ e = .missingOperand (rest.length + 1) := by
  cases hsh : shapeOf b with
  | none => rw [decode_cons_of_none hsh] at h; cases h; exact .inl ⟨rfl, rfl⟩
  | some sh =>
    rw [decode_cons_of_some hsh] at h
    exact .inr (takeOperands_error (encodesAs_of_shapeOf hsh) h)

/-- An opcode followed by fewer bytes than its operands misses the first one that is not there: the bytes hold no
encoding, since `len` is the opcode's alone, and the opcode is known. -/
theorem decode_opcode_of_short {i : Instr} {rest : List Byte} (h : rest.length + 1 < i.length) :
    decode (i.opcode :: rest) = .error (.missingOperand (rest.length + 1)) := by
  cases hd : decode (i.opcode :: rest) with
  | ok j =>
    obtain ⟨hop, hrest⟩ := List.cons_prefix_cons.1 ((decode_eq_ok_iff _ _).1 hd)
    have hlen : j.length = i.length := congrArg lenOfOpcode hop
    have := (opcode_length_of_encode (i := j) rfl).2
    have := hrest.length_le
    omega
  | error e =>
    rcases decode_error_cases hd with ⟨hnone, -⟩ | ⟨_, -, -, rfl⟩
    · have hknown := decode_encode_append i []
      rw [encode, List.cons_append, decode_cons_of_none hnone] at hknown
      cases hknown
    · rfl

theorem shapeOf_eq_none_iff {b : Byte} : shapeOf b = none ↔
    b ∉ [0x01#8, 0x11#8, 0x45#8, 0x46#8, 0x47#8, 0x50#8, 0x54#8, 0x55#8, 0x56#8, 0x69#8, 0x82#8, 0xA0#8, 0xA1#8,
      0xA2#8, 0xA3#8, 0xA4#8, 0xA7#8, 0xA8#8, 0xAA#8, 0xAB#8, 0xAC#8, 0xAD#8] :=
  findRow_eq_none_iff

/-- Settles O2: the decoder names an unknown opcode exactly where the dispatch lookup finds no row. -/
theorem unknownOpcodesRefused : Obligations.UnknownOpcodesRefused := by
  refine fun b rest => Iff.trans ⟨fun h => ?_, decode_cons_of_none⟩ shapeOf_eq_none_iff
  rcases decode_error_cases h with ⟨hnone, -⟩ | ⟨i, -, -, he⟩
  · exact hnone
  · cases he

/-- Settles O3: closed words, decoded by evaluation. -/
theorem handWrittenWordsDecode : Obligations.HandWrittenWordsDecode := by
  unfold Obligations.HandWrittenWordsDecode
  decide

theorem setsPcFlag_opcode_iff (i : Instr) :
    setsPcFlag i.opcode = true ↔ i = .ret ∨ ∃ r, i = .call r ∨ i = .jmp r ∨ i = .jeq r ∨ i = .jne r := by
  cases i <;> simp [Instr.opcode, setsPcFlag]

/-- Settles O4, by the flag of each of the 22 opcode bytes. -/
theorem setsPcFlagMarksFive : Obligations.SetsPcFlagMarksFive := setsPcFlag_opcode_iff

end Sys2Proof

/-! The fetch window and a step, by what the window decodes to (spec/44_execution_loop.md R190 to R199). -/

namespace Sys2Proof.Machine

/-! ## The fetch window -/

theorem getElem?_bytesFrom (s : State) (a n k : Nat) :
    (bytesFrom s a n)[k]? = if k < n ∧ a + k < 256 then some (s.mem.read (a + k)) else none := by
  induction n generalizing a k with
  | zero => simp [bytesFrom]
  | succ n ih =>
    rw [bytesFrom]
    by_cases ha : a < 256
    · cases k with
      | zero => simp [ha]
      | succ k => simp [ha, ih, Nat.add_assoc, Nat.add_comm 1 k]
    · have : ¬ a + k < 256 := by omega
      simp [ha, this]

/-- The window once ir is written holds the byte at pc + k, up to two bytes after pc, where that address exists. -/
theorem getElem?_fetchWindow {s : State} (h : s.pc.toNat ≤ 255) (k : Nat) :
    (fetchWindow (s.setIr (s.mem.read s.pc.toNat)))[k]? =
      if k ≤ 2 ∧ s.pc.toNat + k ≤ 255 then some (s.mem.read (s.pc.toNat + k)) else none := by
  cases k with
  | zero => simp [fetchWindow, h]
  | succ k =>
    rw [fetchWindow, List.getElem?_cons_succ, getElem?_bytesFrom]
    have : s.pc.toNat + 1 + k = s.pc.toNat + (k + 1) := by omega
    simp only [State.setIr_pc, State.setIr_mem, this]
    exact if_congr (by omega) rfl rfl

/-- An instruction is decoded at pc exactly when each byte of its encoding lies at its address from pc. -/
theorem decode_fetchWindow_eq_ok_iff {s : State} (h : s.pc.toNat ≤ 255) {i : Instr} :
    decode (fetchWindow (s.setIr (s.mem.read s.pc.toNat))) = .ok i ↔
      ∀ (k : Nat) (b : Byte), (encode i)[k]? = some b →
        s.pc.toNat + k ≤ 255 ∧ s.mem.read (s.pc.toNat + k) = b := by
  have hlen : (encode i).length ≤ 3 := by
    obtain ⟨-, hl⟩ := opcode_length_of_encode (i := i) rfl
    have := i.length_le
    rw [encode, List.length_cons, ← hl]
    omega
  rw [decode_eq_ok_iff, List.prefix_iff_getElem?]
  constructor
  · intro hw k b hb
    obtain ⟨hk, rfl⟩ := List.getElem?_eq_some_iff.1 hb
    have hcell := hw k hk
    rw [getElem?_fetchWindow h, Option.ite_none_right_eq_some] at hcell
    obtain ⟨⟨-, hin⟩, hread⟩ := hcell
    exact ⟨hin, Option.some.inj hread⟩
  · intro hcells k hk
    obtain ⟨hin, hread⟩ := hcells k _ (List.getElem?_eq_getElem hk)
    rw [getElem?_fetchWindow h, if_pos ⟨by omega, hin⟩, hread]

/-! ## A step by its fetch -/

theorem step_of_decode_ok {s : State} {i : Instr} (hr : s.run = .running) (h : s.pc.toNat ≤ 255)
    (hd : decode (fetchWindow (s.setIr (s.mem.read s.pc.toNat))) = .ok i) :
    step s = exec i (s.setIr (s.mem.read s.pc.toNat)) := by
  simp [step_running hr, fetchPhase, fetchOpcode_inside h, fetchInstr, hd]

theorem step_of_decode_error {s : State} {e : DecodeError} (hr : s.run = .running) (h : s.pc.toNat ≤ 255)
    (hd : decode (fetchWindow (s.setIr (s.mem.read s.pc.toNat))) = .error e) :
    step s = .next ((s.setIr (s.mem.read s.pc.toNat)).raise (decodeFault s.pc e)) := by
  simp [step_running hr, fetchPhase, fetchOpcode_inside h, fetchInstr, hd]

theorem step_of_pc_above {s : State} (hr : s.run = .running) (h : 255 < s.pc.toNat) :
    step s = .next (s.raise (.memoryBounds s.pc.toNat)) := by
  simp [step_running hr, fetchPhase, fetchOpcode_above h]

/-- Settles O5: the statement's window is the one the fetch hands to the decoder. -/
theorem stepRunsTheDecodedInstruction : Obligations.StepRunsTheDecodedInstruction :=
  fun _ _ => step_of_decode_ok

/-- Settles O6: the bytes named stand at the front of the fetch window, and their first one is what ir gets. -/
theorem stepRunsTheEncodedInstruction : Obligations.StepRunsTheEncodedInstruction := by
  intro s i hr hcells
  obtain ⟨hp, hop⟩ := hcells 0 i.opcode rfl
  rw [step_of_decode_ok hr hp ((decode_fetchWindow_eq_ok_iff hp).2 hcells), ← hop]
  rfl

/-- After the opcode the window holds those of the next two bytes that exist. -/
theorem fetchWindow_eq_cons {s : State} (h : s.pc.toNat ≤ 255) :
    ∃ rest, fetchWindow s = s.ir :: rest ∧ rest.length = min 2 (255 - s.pc.toNat) := by
  rcases fetchWindow_cases h with ⟨hp, e⟩ | ⟨hp, e⟩ | ⟨hp, e⟩
  all_goals exact ⟨_, e, by simp only [List.length_cons, List.length_nil]; omega⟩

theorem decodeFault_missingOperand_top {p : Pc} {k : Nat} (h : p.toNat + k = 256) :
    decodeFault p (.missingOperand k) = .memoryBounds 256 :=
  congrArg CoreFault.memoryBounds (by omega : (p.toNat : Int) + k = 256)

/-- Settles O7: the window of an opcode too near the top misses the operand whose address is 256. -/
theorem fetchOutOfBounds : Obligations.FetchOutOfBounds := by
  refine ⟨fun s => step_of_pc_above, fun s i hr hp hop hlen => ?_⟩
  obtain ⟨rest, hw, hrest⟩ := fetchWindow_eq_cons (s := s.setIr (s.mem.read s.pc.toNat)) hp
  rw [State.setIr_pc] at hrest
  have hlen3 := i.length_le.2
  have hd : decode (fetchWindow (s.setIr (s.mem.read s.pc.toNat))) = .error (.missingOperand (rest.length + 1)) := by
    rw [hw, State.setIr_ir, hop, decode_opcode_of_short (by omega)]
  rw [step_of_decode_error hr hp hd, decodeFault_missingOperand_top (by omega), hop]
  rfl

/-- Settles O8: no row of the opcode map is found, before any operand is looked for. -/
theorem unknownOpcodeFaultTaken : Obligations.UnknownOpcodeFaultTaken :=
  fun _ hr hp hb => step_of_decode_error hr hp (decode_cons_of_none (shapeOf_eq_none_iff.2 hb))

/-- Settles O9: a step looks at run before anything else. -/
theorem terminalStatesTakeNoStep : Obligations.TerminalStatesTakeNoStep :=
  fun s => ⟨fun h => by simp [step, stopped, h], fun h => by simp [step, stopped, h]⟩

theorem exec_total (i : Instr) (s : State) : ∃ t, exec i s = .next t := by
  rcases exec_cases i s with ⟨_, -, h⟩ | ⟨_, -, h⟩
  · exact ⟨_, h⟩
  · exact ⟨_, h⟩

/-- Settles O10: a fault of the fetch is a next state, and every instruction answers one. -/
theorem runningStepsAreTotal : Obligations.RunningStepsAreTotal := by
  intro s hr
  by_cases hp : s.pc.toNat ≤ 255
  · cases hd : decode (fetchWindow (s.setIr (s.mem.read s.pc.toNat))) with
    | error e => exact ⟨_, step_of_decode_error hr hp hd⟩
    | ok i => rw [step_of_decode_ok hr hp hd]; exact exec_total i _
  · exact ⟨_, step_of_pc_above hr (by omega)⟩

/-- Settles O54: the opcode fetch writes over whatever ir held, so both steps decode one window. -/
theorem irUnobservable : Obligations.IrUnobservable := by
  intro s w hr hp
  cases hd : decode (fetchWindow (s.setIr (s.mem.read s.pc.toNat))) with
  | error e => exact (step_of_decode_error (s := s.setIr w) hr hp hd).trans (step_of_decode_error hr hp hd).symm
  | ok i => exact (step_of_decode_ok (s := s.setIr w) hr hp hd).trans (step_of_decode_ok hr hp hd).symm

end Sys2Proof.Machine

/-! Faults: the order of the register checks, precision, and the reason of each fault (spec/60_exceptions.md R220
to R229). -/

namespace Sys2Proof.Machine

/-! ## The register checks -/

/-- Every instruction with one register operand checks it first. -/
theorem handlerOf_checks_one (r : Byte) (s : State) :
    ∀ mk ∈ [Instr.push, .pop, .prn, .call, .jmp, .jeq, .jne, .not], ∃ k, handlerOf (mk r) s = (regIdx r >>= k) := by
  simp only [List.forall_mem_cons]
  exact ⟨⟨_, rfl⟩, ⟨_, rfl⟩, ⟨_, rfl⟩, ⟨_, rfl⟩, ⟨_, rfl⟩, ⟨_, rfl⟩, ⟨_, rfl⟩, ⟨_, rfl⟩, by simp⟩

/-- Every two-register instruction checks the first operand, then the second. -/
theorem handlerOf_checks_two (a b : Byte) (s : State) :
    ∀ mk ∈ [Instr.add, .sub, .mul, .div, .mod, .cmp, .and, .or, .xor, .shl, .shr],
      ∃ k : Fin 8 → Fin 8 → _, handlerOf (mk a b) s = (regIdx a >>= fun i => regIdx b >>= k i) := by
  simp only [List.forall_mem_cons]
  exact ⟨⟨_, rfl⟩, ⟨_, rfl⟩, ⟨_, rfl⟩, ⟨_, rfl⟩, ⟨_, rfl⟩, ⟨_, rfl⟩, ⟨_, rfl⟩, ⟨_, rfl⟩, ⟨_, rfl⟩, ⟨_, rfl⟩,
    ⟨_, rfl⟩, by simp⟩

theorem regIdx_bind_high {α : Type} {b : Byte} (h : 7 < b.toNat) (k : Fin 8 → Except CoreFault α) :
    (regIdx b >>= k) = .error (.registerBounds b) := by
  rw [regIdx_high h, Except.error_bind']

theorem regIdx_bind_legal {α : Type} {b : Byte} (h : b.toNat ≤ 7) (k : Fin 8 → Except CoreFault α) :
    (regIdx b >>= k) = k ⟨b.toNat, Nat.lt_succ_of_le h⟩ := by
  rw [regIdx, dif_pos (Nat.lt_succ_of_le h), Except.ok_bind']

/-- Settles O40: no handler does anything before its register checks. -/
theorem registerBoundsTaken : Obligations.RegisterBoundsTaken := by
  refine ⟨fun mk hmk s r hr => ?_, fun mk hmk s a b => ⟨fun ha => ?_, fun ha hb => ?_⟩, fun s r v hr => ?_⟩
  · obtain ⟨k, hk⟩ := handlerOf_checks_one r s mk hmk
    exact exec_of_error (hk.trans (regIdx_bind_high hr _))
  · obtain ⟨k, hk⟩ := handlerOf_checks_two a b s mk hmk
    exact exec_of_error (hk.trans (regIdx_bind_high ha _))
  · obtain ⟨k, hk⟩ := handlerOf_checks_two a b s mk hmk
    exact exec_of_error (hk.trans ((regIdx_bind_legal ha _).trans (regIdx_bind_high hb _)))
  · exact exec_of_error (i := .ldi r v) (regIdx_bind_high hr _)

/-! ## The reason of a fault -/

/-- Opcodes of the instructions whose one operand is a register (spec/30_encoding.md R87). -/
def oneRegisterOpcodes : List Byte := [0x45#8, 0x46#8, 0x47#8, 0x50#8, 0x54#8, 0x55#8, 0x56#8, 0x69#8]

/-- Opcodes of the instructions with two register operands. -/
def twoRegisterOpcodes : List Byte :=
  [0xA0#8, 0xA1#8, 0xA2#8, 0xA3#8, 0xA4#8, 0xA7#8, 0xA8#8, 0xAA#8, 0xAB#8, 0xAC#8, 0xAD#8]

/-- What a fault taken by a step from `s` says of `s`, where `op`, `opa` and `opb` are the bytes at pc, pc + 1 and
pc + 2 (spec/60_exceptions.md R221, R223 to R227). -/
def FaultReason (s : State) (op opa opb : Byte) : CoreFault → Prop
  | .unknownOpcode w => s.pc.toNat ≤ 255 ∧ w = op ∧ isOpcode op = false
  | .unsupportedALUOperation => False
  | .divideByZero p => p = s.pc ∧ s.pc.toNat ≤ 253 ∧ op = 0xA3#8 ∧
      ∃ a b : Fin 8, opa = regByte a ∧ opb = regByte b ∧ (s.reg b).toNat = 0
  | .moduloByZero p => p = s.pc ∧ s.pc.toNat ≤ 253 ∧ op = 0xA4#8 ∧
      ∃ a b : Fin 8, opa = regByte a ∧ opb = regByte b ∧ (s.reg b).toNat = 0
  | .registerBounds k => 8 ≤ k.toNat ∧
      ((k = opa ∧ s.pc.toNat ≤ 254 ∧ op ∈ oneRegisterOpcodes) ∨
       (k = opa ∧ s.pc.toNat ≤ 253 ∧ op ∈ 0x82#8 :: twoRegisterOpcodes) ∨
       (k = opb ∧ opa.toNat ≤ 7 ∧ s.pc.toNat ≤ 253 ∧ op ∈ twoRegisterOpcodes))
  | .memoryBounds m =>
      (m = s.pc.toNat ∧ 255 < s.pc.toNat) ∨
      (m = 256 ∧ s.pc.toNat ≤ 255 ∧ ∃ i : Instr, op = i.opcode ∧ 256 < s.pc.toNat + i.length) ∨
      (m = -1 ∧ s.pc.toNat ≤ 254 ∧ (op = 0x45#8 ∨ op = 0x50#8) ∧ opa.toNat ≤ 7 ∧ s.sp.toNat = 0) ∨
      (m = 256 ∧ s.pc.toNat = 254 ∧ op = 0x50#8 ∧ opa.toNat ≤ 7 ∧ s.sp.toNat ≠ 0) ∨
      (m = 256 ∧ s.pc.toNat ≤ 255 ∧ op = 0x11#8 ∧ s.sp.toNat = 255) ∨
      (m = 256 ∧ s.pc.toNat ≤ 254 ∧ op = 0x46#8 ∧ opa.toNat < 7 ∧ s.sp.toNat = 255) ∨
      (m = 256 ∧ s.pc.toNat ≤ 254 ∧ op = 0x46#8 ∧ opa.toNat = 7 ∧ (s.mem.read s.sp.toNat).toNat = 255)

/-- An instruction with a first operand has one operand, a register, or two, the first a register. -/
theorem opcode_of_operands_cons {i : Instr} {b : Byte} {rest : List Byte} (h : i.operands = b :: rest) :
    i.opcode ∈ oneRegisterOpcodes ∨ (∃ c, rest = [c]) ∧ i.opcode ∈ 0x82#8 :: twoRegisterOpcodes := by
  cases i with
  | hlt | ret => cases h
  | push r | pop r | prn r | call r | jmp r | jeq r | jne r | not r =>
    exact .inl (by simp [Instr.opcode, oneRegisterOpcodes])
  | ldi a c | add a c | sub a c | mul a c | div a c | mod a c | cmp a c | and a c | or a c | xor a c | shl a c
  | shr a c =>
    obtain ⟨-, rfl⟩ := List.cons.inj h
    exact .inr ⟨⟨c, rfl⟩, by simp [Instr.opcode, twoRegisterOpcodes]⟩

/-- LDI is the one instruction with two operands whose second is no register. -/
theorem opcode_of_operands_two {i : Instr} {a b : Byte} (h : i.operands = [a, b]) (hldi : ∀ r v, i ≠ .ldi r v) :
    i.opcode ∈ twoRegisterOpcodes := by
  cases i with
  | hlt | ret | push r | pop r | prn r | call r | jmp r | jeq r | jne r | not r => cases h
  | ldi r v => exact absurd rfl (hldi r v)
  | add a c | sub a c | mul a c | div a c | mod a c | cmp a c | and a c | or a c | xor a c | shl a c | shr a c =>
    simp [Instr.opcode, twoRegisterOpcodes]

theorem regByte_toNat_le (i : Fin 8) : (regByte i).toNat ≤ 7 := by
  rw [regByte_toNat]; omega

/-- A fault of the decoder: the opcode is unknown, or its first missing operand byte is the one at address 256. -/
theorem faultReason_of_decode_error {s : State} {e : DecodeError} (hp : s.pc.toNat ≤ 255)
    (hd : decode (fetchWindow (s.setIr (s.mem.read s.pc.toNat))) = .error e) (opa opb : Byte) :
    FaultReason s (s.mem.read s.pc.toNat) opa opb (decodeFault s.pc e) := by
  obtain ⟨rest, hw, hrest⟩ := fetchWindow_eq_cons (s := s.setIr (s.mem.read s.pc.toNat)) hp
  rw [State.setIr_pc] at hrest
  rw [hw, State.setIr_ir] at hd
  rcases decode_error_cases hd with ⟨hnone, rfl⟩ | ⟨i, hop, hlt, rfl⟩
  · exact ⟨hp, rfl, by rw [isOpcode, hnone]; rfl⟩
  · have hlen3 := i.length_le.2
    rw [decodeFault_missingOperand_top (by omega)]
    exact .inr (.inl ⟨rfl, hp, i, hop.symm, by omega⟩)

/-- A fault of an instruction whose bytes stand in memory from pc: its condition, read off those bytes. -/
theorem faultReason_of_raised {s : State} {i : Instr} {f : CoreFault}
    (hcells : ∀ (k : Nat) (b : Byte), (encode i)[k]? = some b →
      s.pc.toNat + k ≤ 255 ∧ s.mem.read (s.pc.toNat + k) = b)
    (hf : Raised i (s.setIr (s.mem.read s.pc.toNat)) f) :
    FaultReason s (s.mem.read s.pc.toNat) (s.mem.read (s.pc.toNat + 1)) (s.mem.read (s.pc.toNat + 2)) f := by
  obtain ⟨hp, hop⟩ : s.pc.toNat ≤ 255 ∧ s.mem.read s.pc.toNat = i.opcode := hcells 0 _ rfl
  have hcell : ∀ (k : Nat) (b : Byte), i.operands[k]? = some b →
      s.pc.toNat + (k + 1) ≤ 255 ∧ s.mem.read (s.pc.toNat + (k + 1)) = b := fun k => hcells (k + 1)
  rw [hop]
  cases hf with
  | @first b rest ho h8 =>
    obtain ⟨h1, ha⟩ := hcell 0 b (by rw [ho]; rfl)
    rcases opcode_of_operands_cons ho with hm | ⟨⟨c, rfl⟩, hm⟩
    · exact ⟨h8, .inl ⟨ha.symm, by omega, hm⟩⟩
    · obtain ⟨h2, -⟩ := hcell 1 c (by rw [ho]; rfl)
      exact ⟨h8, .inr (.inl ⟨ha.symm, by omega, hm⟩)⟩
  | @second a b ho hldi h8 =>
    obtain ⟨h1, ha⟩ := hcell 0 _ (by rw [ho]; rfl)
    obtain ⟨h2, hb⟩ := hcell 1 b (by rw [ho]; rfl)
    exact ⟨h8, .inr (.inr ⟨hb.symm, ha ▸ regByte_toNat_le a, by omega, opcode_of_operands_two ho hldi⟩)⟩
  | @divide a b hi h0 =>
    subst hi
    obtain ⟨h2, hb⟩ := hcell 1 _ rfl
    exact ⟨rfl, by omega, rfl, a, b, (hcell 0 _ rfl).2, hb, h0⟩
  | @modulo a b hi h0 =>
    subst hi
    obtain ⟨h2, hb⟩ := hcell 1 _ rfl
    exact ⟨rfl, by omega, rfl, a, b, (hcell 0 _ rfl).2, hb, h0⟩
  | @spLow r hi h0 =>
    have ho : i.operands = [regByte r] := by rcases hi with rfl | rfl <;> rfl
    obtain ⟨h1, ha⟩ := hcell 0 _ (by rw [ho]; rfl)
    refine .inr (.inr (.inl ⟨rfl, by omega, ?_, ha ▸ regByte_toNat_le r, h0⟩))
    rcases hi with rfl | rfl
    · exact .inl rfl
    · exact .inr rfl
  | @returnHigh r hi h0 hr =>
    subst hi
    obtain ⟨h1, ha⟩ := hcell 0 _ rfl
    rw [State.setIr_pc] at hr ⊢
    exact .inr (.inr (.inr (.inl ⟨by omega, by omega, rfl, ha ▸ regByte_toNat_le r, h0⟩)))
  | retHigh hi h0 =>
    subst hi
    exact .inr (.inr (.inr (.inr (.inl ⟨rfl, hp, rfl, h0⟩))))
  | @popHigh r hi h0 =>
    subst hi
    obtain ⟨h1, ha⟩ := hcell 0 _ rfl
    have hr : (s.mem.read (s.pc.toNat + 1)).toNat = r.val := (congrArg BitVec.toNat ha).trans (regByte_toNat r)
    by_cases h7 : r = 7
    · subst h7
      exact .inr (.inr (.inr (.inr (.inr (.inr ⟨rfl, by omega, rfl, hr, h0⟩)))))
    · rw [if_neg h7] at h0
      have : r.val ≠ 7 := fun h => h7 (Fin.ext h)
      exact .inr (.inr (.inr (.inr (.inr (.inl ⟨rfl, by omega, rfl, by omega, h0⟩)))))

/-! ## A step that faults -/

/-- An instruction that ends FAULTED, run on a core that is not, took a fault where it started. -/
theorem exec_faulted_inv {i : Instr} {s t : State} (hs : s.run = .running) (h : exec i s = .next t)
    (ht : t.run = .faulted) : ∃ f, Raised i s f ∧ t = s.raise f := by
  rcases exec_next_inv h with ⟨f, hf, rfl⟩ | ⟨r, hr, rfl⟩
  · exact ⟨f, handlerOf_error hf, rfl⟩
  · obtain ⟨-, hrun, -⟩ := handlerOf_keeps hr
    obtain ⟨-, -, -, -, -, -, -, -, hc⟩ := haltCheck_frame (advance i.length r)
    obtain ⟨-, -, -, -, -, ha, -⟩ := advance_frame i.length r
    rw [hc, ha, hrun, hs] at ht
    split at ht <;> cases ht

/-- A step that ends FAULTED took a fault that has its reason, at the opcode fetch or after ir was written. -/
theorem step_faulted_inv {s t : State} (h : step s = .next t) (ht : t.run = .faulted) :
    ∃ f, FaultReason s (s.mem.read s.pc.toNat) (s.mem.read (s.pc.toNat + 1)) (s.mem.read (s.pc.toNat + 2)) f ∧
      ((255 < s.pc.toNat ∧ t = s.raise f) ∨
       (s.pc.toNat ≤ 255 ∧ t = (s.setIr (s.mem.read s.pc.toNat)).raise f)) := by
  obtain ⟨hr, ⟨hp, rfl⟩ | ⟨hp, e, hd, rfl⟩ | ⟨hp, i, hd, hx⟩⟩ := step_next_inv h
  · exact ⟨.memoryBounds s.pc.toNat, .inl ⟨rfl, hp⟩, .inl ⟨hp, rfl⟩⟩
  · exact ⟨_, faultReason_of_decode_error hp hd _ _, .inr ⟨hp, rfl⟩⟩
  · obtain ⟨f, hf, rfl⟩ := exec_faulted_inv (s := s.setIr (s.mem.read s.pc.toNat)) hr hx ht
    exact ⟨f, faultReason_of_raised ((decode_fetchWindow_eq_ok_iff hp).1 hd) hf, .inr ⟨hp, rfl⟩⟩

/-- Settles O42: a fault is taken in the starting state, or in that state with ir written. -/
theorem faultsArePrecise : Obligations.FaultsArePrecise := by
  intro s t _ h ht
  obtain ⟨f, -, ⟨-, rfl⟩ | ⟨-, rfl⟩⟩ := step_faulted_inv h ht
  · exact ⟨f, rfl, .inl rfl⟩
  · exact ⟨f, rfl, .inr rfl⟩

/-- Settles O43: whichever kind is recorded, its reason is the one that the fault taken has. -/
theorem faultsHaveTheirReason : Obligations.FaultsHaveTheirReason := by
  intro s t op opa opb hop hopa hopb _ h ht
  subst hop hopa hopb
  obtain ⟨f, hreason, hcase⟩ := step_faulted_inv h ht
  have hf : t.fault = some f := by rcases hcase with ⟨-, rfl⟩ | ⟨-, rfl⟩ <;> rfl
  have recorded : ∀ g, t.fault = some g → FaultReason s (s.mem.read s.pc.toNat) (s.mem.read (s.pc.toNat + 1))
      (s.mem.read (s.pc.toNat + 2)) g := by
    intro g hg
    cases hf.symm.trans hg
    exact hreason
  exact ⟨fun w => recorded (.unknownOpcode w), fun p => recorded (.divideByZero p),
    fun p => recorded (.moduloByZero p), fun k => recorded (.registerBounds k),
    fun m => recorded (.memoryBounds m)⟩

end Sys2Proof.Machine

/-! What a completed cycle does to pc and to memory, and the invariant (spec/10_state.md R21 to R37,
spec/44_execution_loop.md R197). -/

namespace Sys2Proof.Machine

/-! ## The rest of the cycle, field by field -/

theorem haltCheck_advance_mem (len : Nat) (r : Handled) : (haltCheck (advance len r)).mem = r.state.mem := by
  obtain ⟨hc, -⟩ := haltCheck_frame (advance len r)
  obtain ⟨ha, -⟩ := advance_frame len r
  rw [hc, ha]

theorem haltCheck_advance_pc (len : Nat) (r : Handled) :
    (haltCheck (advance len r)).pc = if r.pcWasSet then r.state.pc else r.state.pc + BitVec.ofNat 9 len := by
  obtain ⟨-, -, hc, -⟩ := haltCheck_frame (advance len r)
  obtain ⟨-, -, -, -, -, -, -, -, ha⟩ := advance_frame len r
  rw [hc, ha]

theorem haltCheck_advance_run (len : Nat) (r : Handled) :
    (haltCheck (advance len r)).run = if r.state.halted then .halted else r.state.run := by
  obtain ⟨-, -, -, -, -, -, -, -, hc⟩ := haltCheck_frame (advance len r)
  obtain ⟨-, -, -, -, hh, ha, -⟩ := advance_frame len r
  rw [hc, hh, ha]

/-! ## pc -/

/-- From an address of memory the 9-bit sum with a length does not wrap. -/
theorem pc_add_length_toNat {p : Pc} (h : p.toNat ≤ 255) (i : Instr) :
    (p + BitVec.ofNat 9 i.length).toNat = p.toNat + i.length := by
  have := i.length_le.2
  rw [BitVec.toNat_add, BitVec.toNat_ofNat]
  omega

/-- A handler leaves pc alone and says so, or writes a byte to it; the second only with the sets-PC flag set, for
JEQ with EQUAL set and for JNE with EQUAL clear. -/
theorem handlerOf_pc {i : Instr} {s : State} {r : Handled} (h : handlerOf i s = .ok r) :
    (r.pcWasSet = false ∧ r.state.pc = s.pc) ∨
    (r.pcWasSet = true ∧ (∃ b : Byte, r.state.pc = b.setWidth 9) ∧ setsPcFlag i.opcode = true ∧
      (∀ q, i = .jeq q → s.equalFlag = true) ∧ (∀ q, i = .jne q → s.equalFlag = false)) := by
  have flag : ∀ {q}, i = .call q ∨ i = .jmp q ∨ i = .jeq q ∨ i = .jne q → setsPcFlag i.opcode = true :=
    fun hi => (setsPcFlag_opcode_iff i).2 (.inr ⟨_, hi⟩)
  cases i with
  | hlt => cases h; exact .inl ⟨rfl, rfl⟩
  | push q => obtain ⟨_, -, -, rfl⟩ := handlePush_ok h; exact .inl ⟨rfl, rfl⟩
  | pop q => obtain ⟨_, -, -, rfl⟩ := handlePop_ok h; exact .inl ⟨rfl, rfl⟩
  | prn q => obtain ⟨_, -, rfl⟩ := handlePrn_ok h; exact .inl ⟨rfl, rfl⟩
  | not a => obtain ⟨_, _, -, -, rfl⟩ := aluOne_ok h; exact .inl ⟨rfl, rfl⟩
  | ldi q v => obtain ⟨_, -, rfl⟩ := handleLdi_ok h; exact .inl ⟨rfl, rfl⟩
  | cmp a b => obtain ⟨_, _, -, -, rfl⟩ := handleCmp_ok h; exact .inl ⟨rfl, rfl⟩
  | add a b | sub a b | mul a b | div a b | mod a b | and a b | or a b | xor a b | shl a b | shr a b =>
    obtain ⟨_, _, _, -, -, -, rfl⟩ := aluTwo_ok h; exact .inl ⟨rfl, rfl⟩
  | ret => obtain ⟨-, rfl⟩ := handleRet_ok h; exact .inr ⟨rfl, ⟨_, rfl⟩, rfl, nofun, nofun⟩
  | call q => obtain ⟨_, -, -, -, rfl⟩ := handleCall_ok h; exact .inr ⟨rfl, ⟨_, rfl⟩, flag (.inl rfl), nofun, nofun⟩
  | jmp q => obtain ⟨_, -, rfl⟩ := jumpIf_ok h; exact .inr ⟨rfl, ⟨_, rfl⟩, flag (.inr (.inl rfl)), nofun, nofun⟩
  | jeq q =>
    obtain ⟨_, -, rfl⟩ := jumpIf_ok h
    cases hfl : s.equalFlag
    · exact .inl ⟨rfl, rfl⟩
    · exact .inr ⟨rfl, ⟨_, rfl⟩, flag (.inr (.inr (.inl rfl))), fun _ _ => rfl, nofun⟩
  | jne q =>
    obtain ⟨_, -, rfl⟩ := jumpIf_ok h
    cases hfl : s.equalFlag
    · exact .inr ⟨rfl, ⟨_, rfl⟩, flag (.inr (.inr (.inr rfl))), nofun, fun _ _ => rfl⟩
    · exact .inl ⟨rfl, rfl⟩

/-- Settles O11: a handler under these conditions reports that it left pc. -/
theorem pcAdvancesByLength : Obligations.PcAdvancesByLength := by
  intro i s t _ hp h ht hcond
  rcases exec_next_inv h with ⟨f, -, rfl⟩ | ⟨r, hr, rfl⟩
  · exact absurd rfl ht
  · rcases handlerOf_pc hr with ⟨hset, hpc⟩ | ⟨-, -, hflag, hjeq, hjne⟩
    · rw [haltCheck_advance_pc, hset, hpc]
      exact pc_add_length_toNat hp i
    · rcases hcond with hclear | ⟨q, hq, heq⟩ | ⟨q, hq, heq⟩
      · rw [hflag] at hclear; cases hclear
      · cases (hjeq q hq).symm.trans heq
      · cases (hjne q hq).symm.trans heq

/-! ## Memory -/

/-- A handler leaves memory alone, or is PUSH's or CALL's and writes the cell below SP. -/
theorem handlerOf_mem {i : Instr} {s : State} {r : Handled} (h : handlerOf i s = .ok r) :
    r.state.mem = s.mem ∨
    ((∃ q, i = .push q ∨ i = .call q) ∧ ∃ v, r.state.mem = s.mem.write (s.sp - 1#8).toNat v) := by
  cases i with
  | hlt => cases h; exact .inl rfl
  | ret => obtain ⟨-, rfl⟩ := handleRet_ok h; exact .inl rfl
  | push q => obtain ⟨_, -, -, rfl⟩ := handlePush_ok h; exact .inr ⟨⟨q, .inl rfl⟩, _, rfl⟩
  | call q => obtain ⟨_, -, -, -, rfl⟩ := handleCall_ok h; exact .inr ⟨⟨q, .inr rfl⟩, _, rfl⟩
  | pop q => obtain ⟨_, -, -, rfl⟩ := handlePop_ok h; exact .inl rfl
  | prn q => obtain ⟨_, -, rfl⟩ := handlePrn_ok h; exact .inl rfl
  | jmp q | jeq q | jne q => obtain ⟨_, -, rfl⟩ := jumpIf_ok h; split <;> exact .inl rfl
  | not a => obtain ⟨_, _, -, -, rfl⟩ := aluOne_ok h; exact .inl rfl
  | ldi q v => obtain ⟨_, -, rfl⟩ := handleLdi_ok h; exact .inl rfl
  | cmp a b => obtain ⟨_, _, -, -, rfl⟩ := handleCmp_ok h; exact .inl rfl
  | add a b | sub a b | mul a b | div a b | mod a b | and a b | or a b | xor a b | shl a b | shr a b =>
    obtain ⟨_, _, _, -, -, -, rfl⟩ := aluTwo_ok h; exact .inl rfl

theorem exec_mem_cases {i : Instr} {s t : State} (h : exec i s = .next t) :
    t.mem = s.mem ∨ ((∃ q, i = .push q ∨ i = .call q) ∧ ∃ v, t.mem = s.mem.write (s.sp - 1#8).toNat v) := by
  rcases exec_next_inv h with ⟨f, -, rfl⟩ | ⟨r, hr, rfl⟩
  · exact .inl rfl
  · rw [haltCheck_advance_mem]; exact handlerOf_mem hr

theorem exec_mem_of_not_push_call {i : Instr} {s t : State} (hpush : ∀ q, i ≠ .push q) (hcall : ∀ q, i ≠ .call q)
    (h : exec i s = .next t) : t.mem = s.mem := by
  rcases exec_mem_cases h with hm | ⟨⟨q, rfl | rfl⟩, -⟩
  · exact hm
  · exact absurd rfl (hpush q)
  · exact absurd rfl (hcall q)

/-- Whatever the instruction, no cell but the one below SP reads another byte. -/
theorem exec_read_of_ne {i : Instr} {s t : State} (h : exec i s = .next t) {a : Nat} (ha : a ≠ (s.sp - 1#8).toNat) :
    t.mem.read a = s.mem.read a := by
  rcases exec_mem_cases h with hm | ⟨-, v, hm⟩
  · rw [hm]
  · rw [hm, Memory.read_write_other _ _ ha]

/-- Settles O52, from the one lemma about which cell an instruction can write. -/
theorem onlyPushAndCallWriteMemory : Obligations.OnlyPushAndCallWriteMemory := by
  refine ⟨fun i s t hpush hcall h addr => by rw [exec_mem_of_not_push_call hpush hcall h], ?_⟩
  rintro r s t (h | h) addr ha
  · exact exec_read_of_ne h ha
  · exact exec_read_of_ne h ha

/-- Settles O13: the cell written is inside memory, where a write keeps the canonical form. -/
theorem memWriteSetsOneCell : Obligations.MemWriteSetsOneCell := by
  refine fun s addr v hm => ⟨fun hlow hhigh => ?_, fun hout => ?_⟩
  · refine ⟨s.setCell addr.toNat v, by rw [State.memWrite, if_pos ⟨hlow, hhigh⟩], rfl, ?_, fun a ha => ?_, ?_⟩
    · exact Memory.read_write_same hm _ _
    · exact Memory.read_write_other _ _ ha
    · exact Memory.wf_write hm (by omega) v
  · rw [State.memWrite, if_neg (by omega)]

/-! ## The invariant -/

/-- An instruction keeps the flags or makes exactly one of them set. -/
theorem exec_fl_cases {i : Instr} {s t : State} (h : exec i s = .next t) :
    t.fl = s.fl ∨ t.fl = flEqual ∨ t.fl = flLess ∨ t.fl = flGreater := by
  cases i with
  | cmp a b =>
    rcases exec_next_inv h with ⟨f, -, rfl⟩ | ⟨r, hr, rfl⟩
    · exact .inl rfl
    · obtain ⟨x, y, -, -, rfl⟩ := handleCmp_ok hr
      rw [haltCheck_advance_fl]
      exact .inr (compareFlags_oneHot_and_swap _ _).1
  | _ => exact .inl (exec_fl (by simp) h)

section
variable {c : Config} {s : State}

theorem Inv.halted_of_running (hs : Inv c s) (hr : s.run = .running) : s.halted = false := by
  have := hs.haltedRun
  rw [hr] at this
  simpa using this

theorem Inv.fault_of_running (hs : Inv c s) (hr : s.run = .running) : s.fault = none := by
  have := hs.faultedRun
  rw [hr] at this
  simpa using this

theorem Inv.setIr (hs : Inv c s) (hr : s.run = .running) (b : Byte) : Inv c (s.setIr b) :=
  { hs with record := fun f hf => by rw [State.setIr_fault, hs.fault_of_running hr] at hf; cases hf }

theorem Inv.raise {f : CoreFault} (hs : Inv c s) (hr : s.run = .running) (hf : RecordLegal (s.raise f) f) :
    Inv c (s.raise f) where
  memory := hs.memory
  pcRange := hs.pcRange
  flags := hs.flags
  haltedRun := by simp [hs.halted_of_running hr]
  faultedRun := by simp
  record := fun g hg => by cases hg; exact hf

/-- A completed cycle from an address of memory. -/
theorem Inv.completed {i : Instr} {r : Handled} (hs : Inv c s) (hr : s.run = .running) (hp : s.pc.toNat ≤ 255)
    (h : handlerOf i s = .ok r) : Inv c (haltCheck (advance i.length r)) := by
  have hx := exec_of_ok h
  obtain ⟨-, hrun, hfault⟩ := handlerOf_keeps h
  rw [hs.fault_of_running hr] at hfault
  rw [hr] at hrun
  constructor
  case memory =>
    rcases exec_mem_cases hx with hm | ⟨-, v, hm⟩
    · rw [hm]; exact hs.memory
    · rw [hm]; exact Memory.wf_write hs.memory (BitVec.isLt _) v
  case pcRange =>
    rw [haltCheck_advance_pc]
    rcases handlerOf_pc h with ⟨hset, hpc⟩ | ⟨hset, ⟨b, hpc⟩, -⟩
    · have := i.length_le.2
      have := pc_add_length_toNat hp i
      simp only [hset, hpc, Bool.false_eq_true, if_false]
      omega
    · have := b.isLt
      simp only [hset, hpc, if_true, BitVec.toNat_setWidth]
      omega
  case flags =>
    rcases exec_fl_cases hx with hfl | hfl
    · rw [FlagsLegal, hfl]; exact hs.flags
    · exact .inr hfl
  case haltedRun =>
    rw [haltCheck_advance_run, haltCheck_advance_halted, hrun]
    cases r.state.halted <;> simp
  case faultedRun =>
    rw [haltCheck_advance_run, haltCheck_advance_fault, hrun, hfault]
    cases r.state.halted <;> simp
  case record =>
    rw [haltCheck_advance_fault, hfault]
    nofun

/-- A fault with its reason is within the ranges of a record, where pc is as it was and ir holds the opcode. -/
theorem recordLegal_of_faultReason {t : State} {op opa opb : Byte} {f : CoreFault} (hpc258 : s.pc.toNat ≤ 258)
    (hpc : t.pc = s.pc) (hir : s.pc.toNat ≤ 255 → t.ir = op) (h : FaultReason s op opa opb f) : RecordLegal t f := by
  cases f with
  | unknownOpcode w => obtain ⟨hp, rfl, hop⟩ := h; exact ⟨hop, hir hp⟩
  | unsupportedALUOperation => exact h
  | divideByZero p | moduloByZero p =>
    obtain ⟨rfl, hp, hop, -⟩ := h
    exact ⟨hpc.symm, hp, (hir (by omega)).trans hop⟩
  | registerBounds k => exact h.1
  | memoryBounds m =>
    show m = -1 ∨ m = 256 ∨ m = 257 ∨ m = 258
    rcases h with ⟨hm, hp⟩ | ⟨hm, -⟩ | ⟨hm, -⟩ | ⟨hm, -⟩ | ⟨hm, -⟩ | ⟨hm, -⟩ | ⟨hm, -⟩ <;> omega

end

/-- Settles O44: a step that faults keeps everything a record does not speak of, and its reason bounds the record;
any other is a completed cycle from an address of memory. -/
theorem stepKeepsInv : Obligations.StepKeepsInv := by
  intro c s t hs h
  have hr := running_of_step h
  by_cases ht : t.run = .faulted
  · obtain ⟨f, hreason, ⟨hp, rfl⟩ | ⟨-, rfl⟩⟩ := step_faulted_inv h ht
    · exact hs.raise hr (recordLegal_of_faultReason hs.pcRange rfl (fun hle => by omega) hreason)
    · exact (hs.setIr hr _).raise hr (recordLegal_of_faultReason hs.pcRange rfl (fun _ => rfl) hreason)
  · obtain ⟨-, ⟨-, rfl⟩ | ⟨-, e, -, rfl⟩ | ⟨hp, i, -, hx⟩⟩ := step_next_inv h
    · exact absurd rfl ht
    · exact absurd rfl ht
    · rcases exec_next_inv hx with ⟨f, -, rfl⟩ | ⟨r, hok, rfl⟩
      · exact absurd rfl ht
      · exact (hs.setIr hr (s.mem.read s.pc.toNat)).completed hr hp hok

end Sys2Proof.Machine

/-! Reset, load and the end of a run (spec/10_state.md R37, spec/20_memory.md R65 to R67). -/

namespace Sys2Proof.Machine

theorem inv_resetWith (c : Config) : Inv c (State.resetWith c) where
  memory := rfl
  pcRange := Nat.zero_le _
  flags := .inl rfl
  haltedRun := by simp [State.resetWith]
  faultedRun := by simp [State.resetWith]
  record := nofun

/-- Settles O45. -/
theorem resetMeetsInv : Obligations.ResetMeetsInv := inv_resetWith

/-! ## The load -/

theorem Memory.read_place_outside (m : Memory) (bs : List Byte) (a : Nat) {k : Nat}
    (hk : k < a ∨ a + bs.length ≤ k) : (m.place bs a).read k = m.read k := by
  induction bs generalizing a m with
  | nil => rfl
  | cons b bs ih =>
    rw [List.length_cons] at hk
    rw [Memory.place, ih _ _ (by omega)]
    split
    · exact Memory.read_write_other m b (by omega)
    · rfl

/-- Bytes placed below the top of memory: each lies at its address, and those placed later leave it. -/
theorem Memory.read_place_of_getElem? {m : Memory} (hm : m.wf = true) {bs : List Byte} {a k : Nat} {b : Byte}
    (htop : a + bs.length ≤ 256) (hb : bs[k]? = some b) : (m.place bs a).read (a + k) = b := by
  induction bs generalizing m a k with
  | nil => cases hb
  | cons b' bs ih =>
    rw [List.length_cons] at htop
    rw [Memory.place, if_pos (by omega : a < 256)]
    cases k with
    | zero =>
      cases hb
      exact (Memory.read_place_outside _ bs (a + 1) (.inl (by omega))).trans (Memory.read_write_same hm a b)
    | succ k =>
      rw [← Nat.add_assoc, Nat.add_right_comm]
      exact ih (Memory.wf_write hm (by omega) b') (by omega) hb

theorem boot_of_fits (c : Config) {image : List Byte} (h : image.length ≤ 256) :
    boot c image = .next { State.resetWith c with mem := (State.resetWith c).mem.place image 0 } := if_pos h

theorem boot_of_too_long (c : Config) {image : List Byte} (h : 256 < image.length) :
    boot c image = .refused (.imageTooLong image.length) := if_neg (Nat.not_le.2 h)

/-- Settles O48: the image is placed from address 0 over cells that all read 0. -/
theorem bootLoadsTheImage : Obligations.BootLoadsTheImage := by
  refine fun c image => ⟨fun h => ⟨_, boot_of_fits c h, rfl, fun i b hb => ?_, fun a ha => ?_⟩, boot_of_too_long c⟩
  · have := Memory.read_place_of_getElem? (Memory.wf_reset c) (a := 0) (by omega) hb
    rwa [Nat.zero_add] at this
  · exact Memory.read_place_outside _ image 0 (.inr (by omega))

theorem inv_of_boot {c : Config} {image : List Byte} {s : State} (h : boot c image = .next s) : Inv c s := by
  by_cases hlen : image.length ≤ 256
  · rw [boot_of_fits c hlen] at h
    cases h
    exact { inv_resetWith c with memory := Memory.wf_place (Memory.wf_reset c) image 0, record := nofun }
  · rw [boot_of_too_long c (by omega)] at h
    cases h

/-- Settles O46, by induction on the run: the load meets the invariant and every step keeps it. -/
theorem reachableStatesMeetInv : Obligations.ReachableStatesMeetInv := by
  intro c s h
  induction h with
  | boot hb => exact inv_of_boot hb
  | step _ ht ih => exact stepKeepsInv c _ _ ih ht

/-! ## The values after reset, and the end of a run -/

theorem resetWith_reg (c : Config) {i : Fin 8} (h : i ≠ 7) : (State.resetWith c).reg i = c.gprReset := by
  have : 7 ≠ i.val := fun e => h (Fin.ext e.symm)
  simp [State.resetWith, State.reg, Vector.getElem_set_ne, this]

/-- Settles O47: only R0..R6 are not read off the definition, R7 being written over them. -/
theorem resetValues : Obligations.ResetValues :=
  ⟨fun c => ⟨by simp [State.resetWith, State.sp, State.reg, Config.spReset], rfl, fun _ => rfl, rfl, rfl, rfl, rfl,
    fun _ => resetWith_reg c, rfl, rfl⟩, fun _ => resetWith_reg _, rfl⟩

/-- Settles O49, by the run state. -/
theorem hostResetAndEndOfRun : Obligations.HostResetAndEndOfRun := by
  refine ⟨?_, ?_, ?_, ?_, ?_⟩
  · rintro c s (h | h) <;> simp only [hostReset, h]
  · intro c s h; simp only [hostReset, h]
  · intro s h; simp only [endOfRun, h]
  · intro s h; simp only [endOfRun, h]
  · intro s f h hf; simp only [endOfRun, h, hf, Option.map_some]

end Sys2Proof.Machine

/-! Results of the ALU, of the branches and of the core instructions (spec/40_alu.md, spec/42_compare_branch.md,
spec/43_core.md). -/

namespace Sys2Proof.Machine

/-- With the halted bit clear a completed handler's state is advanced and nothing more. -/
theorem exec_of_ok_clear {i : Instr} {s : State} {r : Handled} (h : handlerOf i s = .ok r)
    (hr : r.state.halted = false) : exec i s = .next (advance i.length r) := by
  obtain ⟨-, -, -, -, ha, -⟩ := advance_frame i.length r
  rw [exec_of_ok h, haltCheck_clear (ha.trans hr)]

/-! ## ALU -/

theorem aluTwo_of_result {op : AluOp} {s : State} {a b : Fin 8} {v : Byte}
    (hv : aluResult op s.pc (s.reg a) (s.reg b) = .ok v) :
    aluTwo op (regByte a) (regByte b) s = .ok ⟨s.setReg a v, false⟩ := by
  rw [aluTwo_legal, hv, Except.ok_bind']

/-- A two-register ALU instruction whose operation has a result writes it to its first register. -/
theorem exec_aluTwo {i : Instr} {op : AluOp} {s : State} {a b : Fin 8} {v : Byte}
    (hi : handlerOf i s = aluTwo op (regByte a) (regByte b) s) (hlen : i.length = 3) (hs : s.halted = false)
    (hv : aluResult op s.pc (s.reg a) (s.reg b) = .ok v) :
    exec i s = .next { s with x := s.x.set a v, pc := s.pc + 3 } := by
  rw [exec_of_ok_clear (hi.trans (aluTwo_of_result hv)) hs, hlen]
  rfl

/-- Settles O14: a sum put into 8 bits. -/
theorem addResult : Obligations.AddResult :=
  fun _ _ _ hs => ⟨_, BitVec.toNat_ofNat _ _, exec_aluTwo (op := .add) rfl (Instr.length_add _ _) hs rfl⟩

/-- Settles O15: an integer put into 8 bits is its non-negative remainder. -/
theorem subResult : Obligations.SubResult := by
  refine fun s a b hs => ⟨_, ?_, exec_aluTwo (op := .sub) rfl (Instr.length_sub _ _) hs rfl⟩
  rw [BitVec.toNat_ofInt]
  exact Int.toNat_of_nonneg (Int.emod_nonneg _ (by decide))

/-- Settles O16: a product put into 8 bits. -/
theorem mulResult : Obligations.MulResult :=
  fun _ _ _ hs => ⟨_, BitVec.toNat_ofNat _ _, exec_aluTwo (op := .mul) rfl (Instr.length_mul _ _) hs rfl⟩

theorem aluResult_div {p : Pc} {x y : Byte} (h : y.toNat ≠ 0) :
    aluResult .div p x y = .ok (BitVec.ofNat 8 (x.toNat / y.toNat)) := if_neg h

theorem aluResult_mod {p : Pc} {x y : Byte} (h : y.toNat ≠ 0) :
    aluResult .mod p x y = .ok (BitVec.ofNat 8 (x.toNat % y.toNat)) := if_neg h

/-- A number not above a byte's value is kept as a byte. -/
theorem toNat_ofNat_of_le {n : Nat} {x : Byte} (h : n ≤ x.toNat) : (BitVec.ofNat 8 n).toNat = n :=
  (BitVec.toNat_ofNat n 8).trans (Nat.mod_eq_of_lt (Nat.lt_of_le_of_lt h x.isLt))

/-- Settles O17: the quotient is not above the dividend. -/
theorem divResult : Obligations.DivResult := fun _ _ _ hs h0 =>
  ⟨_, toNat_ofNat_of_le (Nat.div_le_self _ _), exec_aluTwo rfl (Instr.length_div _ _) hs (aluResult_div h0)⟩

/-- Settles O18: the remainder is not above the dividend. -/
theorem modResult : Obligations.ModResult := fun _ _ _ hs h0 =>
  ⟨_, toNat_ofNat_of_le (Nat.mod_le _ _), exec_aluTwo rfl (Instr.length_mod _ _) hs (aluResult_mod h0)⟩

/-- Settles O19: the operation is asked for after both register checks and before the one write. -/
theorem zeroDivisorFaults : Obligations.ZeroDivisorFaults := by
  intro s a b h0
  have hdiv : handlerOf (.div (regByte a) (regByte b)) s = .error (.divideByZero s.pc) := by
    rw [handlerOf, aluTwo_legal, aluResult, if_pos h0, Except.error_bind']
  have hmod : handlerOf (.mod (regByte a) (regByte b)) s = .error (.moduloByZero s.pc) := by
    rw [handlerOf, aluTwo_legal, aluResult, if_pos h0, Except.error_bind']
  exact ⟨exec_of_error hdiv, exec_of_error hmod⟩

/-- The destination of a completed two-register ALU instruction, whatever the halted bit. -/
theorem exec_aluTwo_reg {i : Instr} {op : AluOp} {s : State} {a b : Fin 8} {v : Byte}
    (hi : handlerOf i s = aluTwo op (regByte a) (regByte b) s)
    (hv : aluResult op s.pc (s.reg a) (s.reg b) = .ok v) : ∃ t, exec i s = .next t ∧ t.reg a = v := by
  obtain ⟨t, ht, -, hreg, -⟩ := exec_next_of_ok (hi.trans (aluTwo_of_result hv))
  exact ⟨t, ht, by rw [hreg, State.reg_setReg, if_pos rfl]⟩

/-- Settles O20: the division algorithm on the two values. -/
theorem divModIdentity : Obligations.DivModIdentity := by
  intro s a b h0
  obtain ⟨t, ht, tq⟩ := exec_aluTwo_reg (i := .div (regByte a) (regByte b)) rfl (aluResult_div h0)
  obtain ⟨u, hu, ur⟩ := exec_aluTwo_reg (i := .mod (regByte a) (regByte b)) rfl (aluResult_mod h0)
  refine ⟨t, u, ht, hu, ?_⟩
  rw [tq, ur, toNat_ofNat_of_le (Nat.div_le_self _ _), toNat_ofNat_of_le (Nat.mod_le _ _)]
  exact ⟨Nat.div_add_mod _ _, Nat.mod_lt _ (Nat.pos_of_ne_zero h0)⟩

/-- Settles O21: bit `k` of each bit vector operation. -/
theorem bitwiseResults : Obligations.BitwiseResults := fun _ _ _ hs =>
  ⟨⟨_, fun _ _ => BitVec.getLsbD_and, exec_aluTwo (op := .and) rfl (Instr.length_and _ _) hs rfl⟩,
   ⟨_, fun _ _ => BitVec.getLsbD_or, exec_aluTwo (op := .or) rfl (Instr.length_or _ _) hs rfl⟩,
   ⟨_, fun _ _ => BitVec.getLsbD_xor, exec_aluTwo (op := .xor) rfl (Instr.length_xor _ _) hs rfl⟩⟩

/-- 255 less a byte's value is the byte with every bit inverted. -/
theorem ofNat_255_sub_eq_not (x : Byte) : BitVec.ofNat 8 (255 - x.toNat) = ~~~x := by
  apply BitVec.eq_of_toNat_eq
  rw [BitVec.toNat_not, BitVec.toNat_ofNat]
  omega

/-- Settles O22: 255 less the value is the inverted byte. -/
theorem notResult : Obligations.NotResult := by
  intro s a hs
  have hok : handlerOf (.not (regByte a)) s = .ok ⟨s.setReg a (~~~(s.reg a)), false⟩ := by
    rw [handlerOf, aluOne_legal, aluResult, ofNat_255_sub_eq_not, Except.ok_bind']
  refine ⟨~~~(s.reg a), ?_, fun k hk => by simp [hk], ?_⟩
  · have := (s.reg a).isLt
    rw [BitVec.toNat_not]
    omega
  · rw [exec_of_ok_clear hok hs, Instr.length_not]
    rfl

/-- A shift by 8 or more moves every bit of a byte out. -/
theorem two_pow_eq_256_mul {n : Nat} (h : 8 ≤ n) : 2 ^ n = 256 * 2 ^ (n - 8) := by
  rw [show 256 = 2 ^ 8 from rfl, ← Nat.pow_add, Nat.add_sub_cancel' h]

/-- Settles O23: from 8 on the power of two is a multiple of 256. -/
theorem shlResult : Obligations.ShlResult := by
  refine fun s a b hs => ⟨_, BitVec.toNat_ofNat _ _, fun h8 => ?_,
    exec_aluTwo (op := .shl) rfl (Instr.length_shl _ _) hs rfl⟩
  apply BitVec.eq_of_toNat_eq
  rw [BitVec.toNat_ofNat, two_pow_eq_256_mul h8, Nat.mul_left_comm]
  exact Nat.mul_mod_right _ _

/-- Settles O24: from 8 on the power of two is above every byte. -/
theorem shrResult : Obligations.ShrResult := by
  refine fun s a b hs => ⟨_, toNat_ofNat_of_le (Nat.div_le_self _ _), fun h8 => ?_,
    exec_aluTwo (op := .shr) rfl (Instr.length_shr _ _) hs rfl⟩
  rw [Nat.div_eq_of_lt]
  · rfl
  · exact Nat.lt_of_lt_of_le (s.reg a).isLt (Nat.pow_le_pow_right Nat.two_pos h8)

/-! ## Compare and branch -/

/-- Settles O25: the three orders of the two values. -/
theorem cmpResult : Obligations.CmpResult := by
  intro s a b hs
  have hok : handlerOf (.cmp (regByte a) (regByte b)) s =
      .ok ⟨s.setFl (compareFlags (s.reg a) (s.reg b)), false⟩ := handleCmp_legal a b s
  refine ⟨_, compareFlags_of_gt, compareFlags_of_lt, compareFlags_of_eq, ?_⟩
  rw [exec_of_ok_clear hok hs, Instr.length_cmp]
  rfl

/-- A branch on a legal register, taken: pc is the register's value. -/
theorem exec_jump_taken {i : Instr} {s : State} {taken : Bool} {r : Fin 8}
    (hi : handlerOf i s = jumpIf taken (regByte r) s) (ht : taken = true) (hs : s.halted = false) :
    ∃ p : Pc, p.toNat = (s.reg r).toNat ∧ exec i s = .next { s with pc := p } := by
  have hok : handlerOf i s = .ok ⟨s.setPcByte (s.reg r), true⟩ := by rw [hi, jumpIf_legal, if_pos ht]
  exact ⟨_, BitVec.toNat_setWidth_of_le (by decide), exec_of_ok_clear hok hs⟩

/-- And not taken: pc advances past the instruction. -/
theorem exec_jump_not_taken {i : Instr} {s : State} {taken : Bool} {r : Fin 8}
    (hi : handlerOf i s = jumpIf taken (regByte r) s) (hlen : i.length = 2) (ht : taken = false)
    (hs : s.halted = false) : exec i s = .next { s with pc := s.pc + 2 } := by
  have hok : handlerOf i s = .ok ⟨s, false⟩ := by rw [hi, jumpIf_legal, ht]; rfl
  rw [exec_of_ok_clear hok hs, hlen]
  rfl

/-- Settles O27: JMP is the branch that is always taken. -/
theorem jmpResult : Obligations.JmpResult := fun _ _ hs => exec_jump_taken rfl rfl hs

/-- Settles O28: JEQ is taken by the bit it reads. -/
theorem jeqResult : Obligations.JeqResult := fun _ _ hs =>
  ⟨fun hset => exec_jump_taken rfl hset hs, fun hclear => exec_jump_not_taken rfl (Instr.length_jeq _) hclear hs⟩

/-- Settles O29: JNE is taken by the negation of that bit. -/
theorem jneResult : Obligations.JneResult := fun s _ hs =>
  ⟨fun hclear => exec_jump_taken rfl (by rw [State.equalFlag, hclear]; rfl) hs,
   fun hset => exec_jump_not_taken rfl (Instr.length_jne _) (by rw [State.equalFlag, hset]; rfl) hs⟩

/-! ## Core -/

/-- Settles O30: the halt check follows on the bit just set, whatever it was. -/
theorem hltResult : Obligations.HltResult := by
  intro s
  rw [exec_of_ok (r := ⟨s.setHalted, false⟩) rfl, Instr.length_hlt]
  rfl

/-- Settles O31: the immediate is used as it stands. -/
theorem ldiResult : Obligations.LdiResult := by
  intro s r v hs
  have hok : handlerOf (.ldi (regByte r) v) s = .ok ⟨s.setReg r v, false⟩ := by
    rw [handlerOf, handleLdi, regIdx_regByte]; rfl
  rw [exec_of_ok_clear hok hs, Instr.length_ldi]
  rfl

/-- Settles O32: PRN emits the register before pc advances. -/
theorem prnResult : Obligations.PrnResult := by
  intro s r hs
  have hok : handlerOf (.prn (regByte r)) s = .ok ⟨s.emit (s.reg r), false⟩ := by
    rw [handlerOf, handlePrn, regIdx_regByte]; rfl
  rw [exec_of_ok_clear hok hs, Instr.length_prn]
  rfl

end Sys2Proof.Machine

/-! Results of the stack and subroutine instructions (spec/41_stack_subroutine.md). -/

namespace Sys2Proof.Machine

theorem byte_add_one_toNat {b : Byte} (h : b.toNat ≠ 255) : (b + 1#8).toNat = b.toNat + 1 := by
  have := b.isLt
  rw [BitVec.toNat_add_of_lt] <;> simp; omega

/-- The decremented SP, counted up again. -/
theorem byte_sub_one_toNat_add_one {b : Byte} (h : b.toNat ≠ 0) : (b - 1#8).toNat + 1 = b.toNat := by
  rw [byte_sub_one_toNat h]; omega

/-! ## Completed -/

/-- Settles O33: with SP not 0 the decrement and the store both succeed. -/
theorem pushResult : Obligations.PushResult := by
  intro s r hs h0
  refine ⟨s.sp - 1#8, byte_sub_one_toNat_add_one h0, ?_⟩
  rw [exec_of_ok_clear (i := .push (regByte r)) (handlePush_legal r h0) hs, Instr.length_push]
  rfl

/-- Settles O34: what SP counts up from is SP itself, or for R7 the byte just loaded into it. -/
theorem popResult : Obligations.PopResult := by
  refine fun s r hs => ⟨fun hr h255 => ⟨s.sp + 1#8, byte_add_one_toNat h255, ?_⟩, ?_⟩
  · have hbase : (if r = Config.spIndex then s.mem.read s.sp.toNat else s.sp) = s.sp := if_neg hr
    rw [exec_of_ok_clear (i := .pop (regByte r)) (handlePop_legal r (by rwa [hbase])) hs, Instr.length_pop, hbase]
    rfl
  · rintro rfl h255
    refine ⟨s.mem.read s.sp.toNat + 1#8, byte_add_one_toNat h255, ?_⟩
    rw [exec_of_ok_clear (i := .pop (regByte 7)) (handlePop_legal 7 h255) hs, Instr.length_pop,
      ← Vector.set_set (s.mem.read s.sp.toNat)]
    rfl

/-- Settles O35: the return address fits a byte. -/
theorem callResult : Obligations.CallResult := by
  intro s r hs h0 hp
  refine ⟨s.sp - 1#8, BitVec.ofNat 8 (s.pc.toNat + 2), (regAfterDecrement s r (s.sp - 1#8)).setWidth 9,
    byte_sub_one_toNat_add_one h0, ?_, BitVec.toNat_setWidth_of_le (by decide), ?_⟩
  · rw [BitVec.toNat_ofNat, Nat.mod_eq_of_lt (by omega)]
  · exact exec_of_ok_clear (i := .call (regByte r)) (handleCall_legal r h0 hp) hs

/-- Settles O36: with SP not 255 the increment succeeds. -/
theorem retResult : Obligations.RetResult := fun s hs h255 =>
  ⟨s.sp + 1#8, (s.mem.read s.sp.toNat).setWidth 9, byte_add_one_toNat h255, BitVec.toNat_setWidth_of_le (by decide),
    exec_of_ok_clear (i := .ret) (handleRet_legal h255) hs⟩

/-! ## Faulting -/

theorem handlePush_spLow {s : State} (r : Fin 8) (h : s.sp.toNat = 0) :
    handlePush (regByte r) s = .error (.memoryBounds (-1)) := by
  simp [handlePush, regIdx_regByte, spDecrement_zero h]

theorem handleCall_spLow {s : State} (r : Fin 8) (h : s.sp.toNat = 0) :
    handleCall (regByte r) s = .error (.memoryBounds (-1)) := by
  simp [handleCall, regIdx_regByte, spDecrement_zero h]

theorem handleCall_returnHigh {s : State} (r : Fin 8) (h : s.sp.toNat ≠ 0) (hp : 255 < s.pc.toNat + 2) :
    handleCall (regByte r) s = .error (.memoryBounds (s.pc.toNat + 2)) := by
  simp [handleCall, regIdx_regByte, spDecrement_pos h, returnAddress, hp]

theorem handleRet_spHigh {s : State} (h : s.sp.toNat = 255) : handleRet s = .error (.memoryBounds 256) := by
  simp [handleRet, memRead_byte, spIncrement_top h]

theorem handlePop_high {s : State} (r : Fin 8)
    (h : (if r = Config.spIndex then s.mem.read s.sp.toNat else s.sp).toNat = 255) :
    handlePop (regByte r) s = .error (.memoryBounds 256) := by
  simp [handlePop, regIdx_regByte, memRead_byte, spIncrement_top h]

/-- Settles O37, one lemma about a handler for each place; CALL checks SP before its return address. -/
theorem stackFaults : Obligations.StackFaults := by
  refine fun s r => ⟨fun h => ⟨?_, ?_⟩, fun h hp => ?_, fun h => ⟨?_, fun hr => ?_⟩, fun hr h => ?_⟩
  · exact exec_of_error (i := .push _) (handlePush_spLow r h)
  · exact exec_of_error (i := .call _) (handleCall_spLow r h)
  · exact exec_of_error (i := .call _) (handleCall_returnHigh r h hp)
  · exact exec_of_error (i := .ret) (handleRet_spHigh h)
  · exact exec_of_error (i := .pop _) (handlePop_high r (by rwa [if_neg hr]))
  · exact exec_of_error (i := .pop _) (handlePop_high r (by rwa [if_pos hr]))

/-! ## A store that the next fetch reads -/

theorem exec_ir {i : Instr} {s t : State} (h : exec i s = .next t) : t.ir = s.ir := by
  rcases exec_next_inv h with ⟨f, -, rfl⟩ | ⟨r, hr, rfl⟩
  · rfl
  · obtain ⟨hir, -⟩ := handlerOf_keeps hr
    obtain ⟨-, -, -, hc, -⟩ := haltCheck_frame (advance i.length r)
    obtain ⟨-, -, ha, -⟩ := advance_frame i.length r
    rw [hc, ha, hir]

/-- A cycle that fetches leaves in ir the byte at pc, whether or not it faults. -/
theorem step_ir {s t : State} (h : step s = .next t) (hp : s.pc.toNat ≤ 255) : t.ir = s.mem.read s.pc.toNat := by
  obtain ⟨-, ⟨habove, -⟩ | ⟨-, e, -, rfl⟩ | ⟨-, i, -, hx⟩⟩ := step_next_inv h
  · omega
  · rfl
  · exact exec_ir hx

/-- Settles O39: the cell PUSH wrote is the one at the pc it left. -/
theorem pushedByteIsFetchedNext : Obligations.PushedByteIsFetchedNext := by
  intro s t u r hm hs hr h0 hnext ht hu
  obtain ⟨sp1, hsp1, hx⟩ := pushResult s r hs h0
  cases hx.symm.trans ht
  have hpc : (s.pc + 2).toNat = sp1.toNat := by omega
  have := sp1.isLt
  have hir := step_ir hu (by show (s.pc + 2).toNat ≤ 255; omega)
  have hdec : sp1 = s.sp - 1#8 := BitVec.eq_of_toNat_eq (by rw [byte_sub_one_toNat h0]; omega)
  rw [hir, ← hdec]
  exact (congrArg _ hpc).trans (Memory.read_write_same hm _ _)

end Sys2Proof.Machine

/-! The output trace, the registers and the frames (spec/10_state.md R22 to R34). -/

namespace Sys2Proof.Machine

/-! ## The output trace -/

/-- The state with another output trace. -/
def State.setOut (s : State) (o : List Byte) : State := { s with out := o }

def Handled.setOut (h : Handled) (o : List Byte) : Handled := { h with state := h.state.setOut o }

theorem jumpIf_setOut (taken : Bool) (opa : Byte) (s : State) (o : List Byte) :
    jumpIf taken opa (s.setOut o) = (jumpIf taken opa s).map (·.setOut o) :=
  Except.bind_eq_map_bind fun _ => by cases taken <;> rfl

/-- A handler other than PRN's does the same under another trace and carries it along. -/
theorem handlerOf_setOut {i : Instr} (hprn : ∀ q, i ≠ .prn q) (s : State) (o : List Byte) :
    handlerOf i (s.setOut o) = (handlerOf i s).map (·.setOut o) := by
  cases i with
  | hlt => rfl
  | prn q => exact absurd rfl (hprn q)
  | ret => exact Except.bind_eq_map_bind fun _ => Except.bind_eq_map_bind fun _ => rfl
  | push q =>
    exact Except.bind_eq_map_bind fun _ => Except.bind_eq_map_bind fun _ => by rw [memWrite_byte, memWrite_byte]; rfl
  | pop q =>
    exact Except.bind_eq_map_bind fun _ => Except.bind_eq_map_bind fun _ => Except.bind_eq_map_bind fun _ => rfl
  | call q =>
    exact Except.bind_eq_map_bind fun _ => Except.bind_eq_map_bind fun _ => Except.bind_eq_map_bind fun _ => by
      rw [memWrite_byte, memWrite_byte]; rfl
  | jmp q | jeq q | jne q => exact jumpIf_setOut _ q s o
  | ldi q v => exact Except.bind_eq_map_bind fun _ => rfl
  | not a | cmp a b => exact Except.bind_eq_map_bind fun _ => Except.bind_eq_map_bind fun _ => rfl
  | add a b | sub a b | mul a b | div a b | mod a b | and a b | or a b | xor a b | shl a b | shr a b =>
    exact Except.bind_eq_map_bind fun _ => Except.bind_eq_map_bind fun _ => Except.bind_eq_map_bind fun _ => rfl

theorem advance_setOut (len : Nat) (h : Handled) (o : List Byte) :
    advance len (h.setOut o) = (advance len h).setOut o := by
  obtain ⟨u, pcWasSet⟩ := h
  cases pcWasSet <;> rfl

theorem haltCheck_setOut (s : State) (o : List Byte) : haltCheck (s.setOut o) = (haltCheck s).setOut o := by
  show (if s.halted then _ else _) = State.setOut (if s.halted then _ else _) o
  split <;> rfl

theorem exec_setOut {i : Instr} {s t : State} (hprn : ∀ q, i ≠ .prn q) (h : exec i s = .next t) (o : List Byte) :
    exec i (s.setOut o) = .next (t.setOut o) := by
  have hmap := handlerOf_setOut hprn s o
  rcases exec_next_inv h with ⟨f, hf, rfl⟩ | ⟨r, hr, rfl⟩
  · rw [hf] at hmap
    exact exec_of_error hmap
  · rw [hr] at hmap
    rw [exec_of_ok hmap, advance_setOut, haltCheck_setOut]

/-- An instruction other than PRN leaves the trace: the state run is the state with its own trace put in, and
this is carried along. -/
theorem exec_out {i : Instr} {s t : State} (hprn : ∀ q, i ≠ .prn q) (h : exec i s = .next t) : t.out = s.out := by
  have hself : exec i s = .next (t.setOut s.out) := exec_setOut hprn h s.out
  have ht : t = t.setOut s.out := by simpa [h] using hself
  rw [ht]
  rfl

/-- PRN's handler on any state: the fault of its operand, or one value appended. -/
theorem handlerOf_prn_cases (q : Byte) :
    (∃ f, ∀ s, handlerOf (.prn q) s = .error f) ∨ ∃ a, ∀ s, handlerOf (.prn q) s = .ok ⟨s.emit (s.reg a), false⟩ := by
  cases hq : regIdx q with
  | error f => exact .inl ⟨f, fun s => by rw [handlerOf, handlePrn, hq]; rfl⟩
  | ok a => exact .inr ⟨a, fun s => by rw [handlerOf, handlePrn, hq]; rfl⟩

/-- What an instruction appends, at most one value, is the same whatever the trace holds. -/
theorem exec_out_suffix {i : Instr} {s t : State} (h : exec i s = .next t) :
    ∃ suffix, t.out = s.out ++ suffix ∧ suffix.length ≤ 1 ∧
      ∀ o, exec i (s.setOut o) = .next (t.setOut (o ++ suffix)) := by
  by_cases hi : ∀ q, i ≠ .prn q
  · refine ⟨[], by rw [exec_out hi h, List.append_nil], Nat.zero_le _, fun o => ?_⟩
    rw [List.append_nil]
    exact exec_setOut hi h o
  · obtain ⟨q, rfl⟩ : ∃ q, i = .prn q := by simpa using hi
    rcases handlerOf_prn_cases q with ⟨f, hf⟩ | ⟨a, ha⟩
    · cases (exec_of_error (hf s)).symm.trans h
      refine ⟨[], (List.append_nil _).symm, Nat.zero_le _, fun o => ?_⟩
      rw [List.append_nil, exec_of_error (hf _)]
      rfl
    · cases (exec_of_ok (ha s)).symm.trans h
      obtain ⟨-, -, -, -, -, -, -, hc, -⟩ := haltCheck_frame (advance (Instr.prn q).length ⟨s.emit (s.reg a), false⟩)
      refine ⟨[s.reg a], hc, Nat.le_refl _, fun o => ?_⟩
      rw [exec_of_ok (ha _), ← haltCheck_setOut]
      rfl

theorem step_out_suffix {s t : State} (h : step s = .next t) :
    ∃ suffix, t.out = s.out ++ suffix ∧ suffix.length ≤ 1 ∧
      ∀ o, step (s.setOut o) = .next (t.setOut (o ++ suffix)) := by
  obtain ⟨hr, ⟨hp, rfl⟩ | ⟨hp, e, hd, rfl⟩ | ⟨hp, i, hd, hx⟩⟩ := step_next_inv h
  · refine ⟨[], (List.append_nil _).symm, Nat.zero_le _, fun o => ?_⟩
    rw [List.append_nil]
    exact step_of_pc_above (s := s.setOut o) hr hp
  · refine ⟨[], (List.append_nil _).symm, Nat.zero_le _, fun o => ?_⟩
    rw [List.append_nil]
    exact step_of_decode_error (s := s.setOut o) hr hp hd
  · obtain ⟨suffix, hout, hlen, hall⟩ := exec_out_suffix hx
    exact ⟨suffix, hout, hlen, fun o => (step_of_decode_ok (s := s.setOut o) hr hp hd).trans (hall o)⟩

/-- Settles O53: the suffix a step appends is the one that it appends to any trace. -/
theorem outputAppendOnly : Obligations.OutputAppendOnly := by
  refine ⟨fun s t h => ?_, fun i s t => exec_out, fun s t o h => ?_⟩
  · obtain ⟨suffix, hout, hlen, -⟩ := step_out_suffix h
    exact ⟨suffix, hout, hlen⟩
  · obtain ⟨suffix, hout, -, hall⟩ := step_out_suffix h
    exact ⟨suffix, hout, hall o⟩

end Sys2Proof.Machine

/-! The registers an instruction can write, and the frames (spec/10_state.md R21 to R34). -/

namespace Sys2Proof.Machine

/-! ## The registers -/

/-- Register `k` is one that the instruction writes: its destination, or SP. -/
def Writes (k : Fin 8) : Instr → Prop
  | .not a | .ldi a _ | .add a _ | .sub a _ | .mul a _ | .div a _ | .mod a _ | .and a _ | .or a _ | .xor a _
  | .shl a _ | .shr a _ => a = regByte k
  | .pop r => k = 7 ∨ r = regByte k
  | .push _ | .call _ | .ret => k = 7
  | .hlt | .prn _ | .cmp _ _ | .jmp _ | .jeq _ | .jne _ => False

theorem handlerOf_reg {i : Instr} {s : State} {r : Handled} {k : Fin 8} (hk : ¬ Writes k i)
    (h : handlerOf i s = .ok r) : r.state.reg k = s.reg k := by
  have other : ∀ {a : Fin 8} {v : Byte}, ¬ regByte a = regByte k → (s.setReg a v).reg k = s.reg k := by
    intro a v hne
    rw [State.reg_setReg, if_neg fun e => hne (congrArg regByte e.symm)]
  cases i with
  | hlt => cases h; rfl
  | ret => obtain ⟨-, rfl⟩ := handleRet_ok h; exact State.reg_setSp_of_ne _ _ hk
  | push q => obtain ⟨_, -, -, rfl⟩ := handlePush_ok h; exact State.reg_setSp_of_ne _ _ hk
  | call q => obtain ⟨_, -, -, -, rfl⟩ := handleCall_ok h; exact State.reg_setSp_of_ne (s.setCell _ _) _ hk
  | pop q =>
    obtain ⟨_, rfl, -, rfl⟩ := handlePop_ok h
    obtain ⟨h7, hq⟩ := not_or.1 hk
    exact (State.reg_setSp_of_ne _ _ h7).trans (other hq)
  | prn q => obtain ⟨_, -, rfl⟩ := handlePrn_ok h; rfl
  | jmp q | jeq q | jne q => obtain ⟨_, -, rfl⟩ := jumpIf_ok h; split <;> rfl
  | not a => obtain ⟨_, _, rfl, -, rfl⟩ := aluOne_ok h; exact other hk
  | ldi q v => obtain ⟨_, rfl, rfl⟩ := handleLdi_ok h; exact other hk
  | cmp a b => obtain ⟨_, _, -, -, rfl⟩ := handleCmp_ok h; rfl
  | add a b | sub a b | mul a b | div a b | mod a b | and a b | or a b | xor a b | shl a b | shr a b =>
    obtain ⟨_, _, _, rfl, -, -, rfl⟩ := aluTwo_ok h; exact other hk

theorem exec_reg {i : Instr} {s t : State} {k : Fin 8} (hk : ¬ Writes k i) (h : exec i s = .next t) :
    t.reg k = s.reg k := by
  rcases exec_next_inv h with ⟨f, -, rfl⟩ | ⟨r, hr, rfl⟩
  · rfl
  · obtain ⟨-, hc, -⟩ := haltCheck_frame (advance i.length r)
    obtain ⟨-, ha, -⟩ := advance_frame i.length r
    exact (State.reg_congr (hc.trans ha) k).trans (handlerOf_reg hk hr)

/-! ## Frames -/

/-- Every instruction but HLT, halted bit clear: run and the record stay, or a fault is taken and all else stays. -/
theorem exec_kept_or_raised {i : Instr} {s t : State} (hi : i ≠ .hlt) (hs : s.halted = false)
    (h : exec i s = .next t) : (t.run = s.run ∧ t.fault = s.fault) ∨ ∃ f, t = s.raise f := by
  rcases exec_next_inv h with ⟨f, -, rfl⟩ | ⟨r, hr, rfl⟩
  · exact .inr ⟨f, rfl⟩
  · obtain ⟨-, hrun, hfault⟩ := handlerOf_keeps hr
    refine .inl ⟨?_, (haltCheck_advance_fault _ _).trans hfault⟩
    rw [haltCheck_advance_run, handlerOf_halted hi hr, hs, hrun]
    rfl

/-- NOT, LDI and the two-register ALU instructions with first operand `a` (R111, R181). -/
def IsAluOrLdi (i : Instr) (a : Byte) : Prop :=
  i = .not a ∨ (∃ v, i = .ldi a v) ∨
    ∃ b, ∃ mk ∈ [Instr.add, .sub, .mul, .div, .mod, .and, .or, .xor, .shl, .shr], i = mk a b

/-- They write no register but their first operand's, and are none of the instructions that write anything else. -/
theorem IsAluOrLdi.writes_only {i : Instr} {a : Byte} (hi : IsAluOrLdi i a) :
    (∀ k, Writes k i → a = regByte k) ∧ i ≠ .hlt ∧ (∀ x y, i ≠ .cmp x y) ∧ (∀ q, i ≠ .prn q) ∧ (∀ q, i ≠ .push q) ∧
      ∀ q, i ≠ .call q := by
  rcases hi with rfl | ⟨v, rfl⟩ | ⟨b, mk, hmk, rfl⟩
  · exact ⟨fun _ => id, nofun, nofun, nofun, nofun, nofun⟩
  · exact ⟨fun _ => id, nofun, nofun, nofun, nofun, nofun⟩
  · simp only [List.mem_cons, List.not_mem_nil, or_false] at hmk
    rcases hmk with rfl | rfl | rfl | rfl | rfl | rfl | rfl | rfl | rfl | rfl <;>
      exact ⟨fun _ => id, nofun, nofun, nofun, nofun, nofun⟩

/-- Settles O55: each field by its own lemma, the fault by `exec_kept_or_raised`; O56, O57 and O58 go the same way. -/
theorem aluAndLdiFrame : Obligations.AluAndLdiFrame := by
  intro i a s t hi hs h
  obtain ⟨hwrites, hhlt, hcmp, hprn, hpush, hcall⟩ := IsAluOrLdi.writes_only hi
  have hreg : ∀ k : Fin 8, k.val ≠ a.toNat → ¬ Writes k i := by
    intro k hk hw
    rw [hwrites k hw, regByte_toNat] at hk
    exact hk rfl
  refine ⟨fun k hk => exec_reg (hreg k hk) h, exec_fl hcmp h, exec_ir h, exec_halted hhlt h, exec_out hprn h,
    fun addr => by rw [exec_mem_of_not_push_call hpush hcall h], ?_⟩
  rcases exec_kept_or_raised hhlt hs h with hkept | ⟨f, rfl⟩
  · exact .inl hkept
  · exact .inr ⟨rfl, rfl, rfl, nofun⟩

/-- Settles O56: none of them writes a register, and HLT's next state is known. -/
theorem registerFreeFrame : Obligations.RegisterFreeFrame := by
  intro i s t hi hs h
  obtain ⟨hwrites, hpush, hcall⟩ : (∀ k, ¬ Writes k i) ∧ (∀ q, i ≠ .push q) ∧ ∀ q, i ≠ .call q := by
    rcases hi with rfl | ⟨a, b, rfl⟩ | ⟨r, rfl | rfl | rfl | rfl⟩ <;> exact ⟨fun _ => id, nofun, nofun⟩
  refine ⟨fun k => exec_reg (hwrites k) h, exec_ir h, fun addr => by rw [exec_mem_of_not_push_call hpush hcall h],
    fun hcmp => exec_fl hcmp h, fun hprn => exec_out hprn h, fun hhlt => ⟨exec_halted hhlt h, ?_⟩, ?_⟩
  · rcases exec_kept_or_raised hhlt hs h with hkept | ⟨f, rfl⟩
    · exact .inl hkept
    · exact .inr ⟨rfl, rfl, nofun⟩
  · rintro rfl
    cases (hltResult s).symm.trans h
    exact ⟨rfl, rfl⟩

/-- Settles O57: SP is the one register written, and the cell below it the one cell. -/
theorem pushAndCallFrame : Obligations.PushAndCallFrame := by
  rintro i s t ⟨r, hi⟩ hs h
  obtain ⟨hwrites, hhlt, hcmp, hprn⟩ :
      (∀ k, Writes k i → k = 7) ∧ i ≠ .hlt ∧ (∀ a b, i ≠ .cmp a b) ∧ ∀ q, i ≠ .prn q := by
    rcases hi with rfl | rfl <;> exact ⟨fun _ => id, nofun, nofun, nofun⟩
  refine ⟨fun k hk => exec_reg (fun hw => hk (hwrites k hw)) h, exec_fl hcmp h, exec_ir h, exec_halted hhlt h,
    exec_out hprn h, fun addr ha => exec_read_of_ne h ha, ?_⟩
  rcases exec_kept_or_raised hhlt hs h with hkept | ⟨f, rfl⟩
  · exact .inl hkept
  · exact .inr ⟨rfl, rfl, rfl, rfl, nofun⟩

/-- Settles O58: SP and POP's destination are the only registers written. -/
theorem popAndRetFrame : Obligations.PopAndRetFrame := by
  intro i s t hi hs h
  obtain ⟨hwrites, hhlt, hcmp, hprn, hpush, hcall⟩ :
      (∀ k, Writes k i → k = 7 ∨ i = .pop (regByte k)) ∧ i ≠ .hlt ∧ (∀ a b, i ≠ .cmp a b) ∧ (∀ q, i ≠ .prn q) ∧
        (∀ q, i ≠ .push q) ∧ ∀ q, i ≠ .call q := by
    rcases hi with rfl | ⟨r, rfl⟩
    · exact ⟨fun _ => .inl, nofun, nofun, nofun, nofun, nofun⟩
    · exact ⟨fun _ => .imp_right (congrArg Instr.pop), nofun, nofun, nofun, nofun, nofun⟩
  have hreg : ∀ k : Fin 8, k ≠ 7 → (∀ r, i = .pop r → k.val ≠ r.toNat) → ¬ Writes k i := by
    intro k h7 hdest hw
    rcases hwrites k hw with hk | hpop
    · exact h7 hk
    · exact hdest _ hpop (regByte_toNat k).symm
  refine ⟨fun k h7 hdest => exec_reg (hreg k h7 hdest) h, exec_fl hcmp h, exec_ir h, exec_halted hhlt h,
    exec_out hprn h, fun addr => by rw [exec_mem_of_not_push_call hpush hcall h], ?_⟩
  rcases exec_kept_or_raised hhlt hs h with hkept | ⟨f, rfl⟩
  · exact .inl hkept
  · exact .inr ⟨rfl, rfl, rfl, nofun⟩

end Sys2Proof.Machine
